-- ==== Sys2Proof/Word.lean ====
section
/-! DEFINITION. Word.lean: the bit vectors of the machine, by the spec's own widths
(`00_scope.md` R6 to R8). All values are unsigned (R6). -/

namespace Sys2Proof

/-- A memory cell, a general register, a timer, an immediate `kk` (`00_scope.md` R7, R8). -/
abbrev Byte := BitVec 8

/-- An instruction word, the index register, the program counter, a stack entry
(`10_state.md` R23 to R25, `30_encoding.md` R70). -/
abbrev Word := BitVec 16

/-- A 4-bit field of an instruction word (`00_scope.md` R8, R11 "Nibble"). -/
abbrev Nibble := BitVec 4

/-- The index of a general register: the fields `x` and `y` (`30_encoding.md` R72). -/
abbrev Reg := BitVec 4

/-- The immediate `nnn`: a 12-bit byte address (`30_encoding.md` R72). -/
abbrev Addr12 := BitVec 12

end Sys2Proof
end

