-- ==== Sys2Proof/Syntax.lean ====
section
/-! DEFINITION. Syntax.lean: the 35 instructions of `30_encoding.md` R79, one constructor per row of
`spec/opcode_table.json`, operand fields already extracted (R81). A field of the word that an
instruction ignores (`00_scope.md` R8, `30_encoding.md` R82) is no operand and has no place here. -/

namespace Sys2Proof

/-- The closed set of instructions (`30_encoding.md` R79, R81). -/
inductive Instr where
  /-- `SYS nnn` (R101). -/
  | sys (nnn : Addr12)
  /-- `CLS` (R151). -/
  | cls
  /-- `RET` (R102). -/
  | ret
  /-- `JP nnn` (R103). -/
  | jp (nnn : Addr12)
  /-- `CALL nnn` (R104). -/
  | call (nnn : Addr12)
  /-- `SE Vx, kk` (R105). -/
  | seVxKk (x : Reg) (kk : Byte)
  /-- `SNE Vx, kk` (R106). -/
  | sneVxKk (x : Reg) (kk : Byte)
  /-- `SE Vx, Vy` (R107). -/
  | seVxVy (x y : Reg)
  /-- `LD Vx, kk` (R121). -/
  | ldVxKk (x : Reg) (kk : Byte)
  /-- `ADD Vx, kk` (R122). -/
  | addVxKk (x : Reg) (kk : Byte)
  /-- `LD Vx, Vy` (R123). -/
  | ldVxVy (x y : Reg)
  /-- `OR Vx, Vy` (R124). -/
  | orVxVy (x y : Reg)
  /-- `AND Vx, Vy` (R125). -/
  | andVxVy (x y : Reg)
  /-- `XOR Vx, Vy` (R126). -/
  | xorVxVy (x y : Reg)
  /-- `ADD Vx, Vy` (R127). -/
  | addVxVy (x y : Reg)
  /-- `SUB Vx, Vy` (R128). -/
  | subVxVy (x y : Reg)
  /-- `SHR Vx` (R129). -/
  | shrVx (x : Reg)
  /-- `SUBN Vx, Vy` (R130). -/
  | subnVxVy (x y : Reg)
  /-- `SHL Vx` (R131). -/
  | shlVx (x : Reg)
  /-- `SNE Vx, Vy` (R108). -/
  | sneVxVy (x y : Reg)
  /-- `LD I, nnn` (R141). -/
  | ldINnn (nnn : Addr12)
  /-- `JP V0, nnn` (R109). -/
  | jpV0Nnn (nnn : Addr12)
  /-- `RND Vx, kk` (R161). -/
  | rndVxKk (x : Reg) (kk : Byte)
  /-- `DRW Vx, Vy, n` (R152). -/
  | drwVxVyN (x y : Reg) (n : Nibble)
  /-- `SKP Vx` (R162). -/
  | skpVx (x : Reg)
  /-- `SKNP Vx` (R163). -/
  | sknpVx (x : Reg)
  /-- `LD Vx, DT` (R164). -/
  | ldVxDt (x : Reg)
  /-- `LD Vx, K` (R165). -/
  | ldVxK (x : Reg)
  /-- `LD DT, Vx` (R166). -/
  | ldDtVx (x : Reg)
  /-- `LD ST, Vx` (R167). -/
  | ldStVx (x : Reg)
  /-- `ADD I, Vx` (R142). -/
  | addIVx (x : Reg)
  /-- `LD F, Vx` (R143). -/
  | ldFVx (x : Reg)
  /-- `LD B, Vx` (R144). -/
  | ldBVx (x : Reg)
  /-- `LD [I], Vx` (R145). -/
  | ldMemVx (x : Reg)
  /-- `LD Vx, [I]` (R146). -/
  | ldVxMem (x : Reg)
deriving DecidableEq, Repr

end Sys2Proof
end

