-- ==== Sys2Proof/WellFormed.lean ====
section
/-! DEFINITION. WellFormed.lean: which terms of `Instr` some instruction word spells. Every operand
field has the width of its encoding (`30_encoding.md` R72), so one check is left: a `SYS nnn` whose
low byte is 0xE0 or 0xEE spells `CLS` or `RET` (R74). -/

namespace Sys2Proof

/-- The low byte of an address field: `op[7:0]` of the word `0nnn` (`30_encoding.md` R74). -/
def lowByte (nnn : Addr12) : Byte := nnn.extractLsb' 0 8

/-- Some word decodes to this instruction (`30_encoding.md` R74: the low byte of a `SYS` is neither
0xE0 nor 0xEE). -/
def Instr.wf : Instr → Bool
  | .sys nnn => lowByte nnn != 0xE0#8 && lowByte nnn != 0xEE#8
  | .cls | .ret | .jp _ | .call _ | .seVxKk _ _ | .sneVxKk _ _ | .seVxVy _ _ | .ldVxKk _ _
  | .addVxKk _ _ | .ldVxVy _ _ | .orVxVy _ _ | .andVxVy _ _ | .xorVxVy _ _ | .addVxVy _ _
  | .subVxVy _ _ | .shrVx _ | .subnVxVy _ _ | .shlVx _ | .sneVxVy _ _ | .ldINnn _ | .jpV0Nnn _
  | .rndVxKk _ _ | .drwVxVyN _ _ _ | .skpVx _ | .sknpVx _ | .ldVxDt _ | .ldVxK _ | .ldDtVx _
  | .ldStVx _ | .addIVx _ | .ldFVx _ | .ldBVx _ | .ldMemVx _ | .ldVxMem _ => true

end Sys2Proof
end

