-- ==== Sys2Proof/Decode.lean ====
section
/-! DEFINITION. Decode.lean: the two-tier decoder of `30_encoding.md` R73 to R81, total on words and on
byte lists, rejecting by name; and the encoder, written from the same table (R71, R79). -/

namespace Sys2Proof

/-! ### The fields of an instruction word (`00_scope.md` R8) -/

/-- The primary code `op[15:12]`. -/
def fieldPrimary (op : Word) : Nibble := op.extractLsb' 12 4

/-- `x = op[11:8]`. -/
def fieldX (op : Word) : Reg := op.extractLsb' 8 4

/-- `y = op[7:4]`. -/
def fieldY (op : Word) : Reg := op.extractLsb' 4 4

/-- `n = op[3:0]`. -/
def fieldN (op : Word) : Nibble := op.extractLsb' 0 4

/-- `kk = op[7:0]`. -/
def fieldKk (op : Word) : Byte := op.extractLsb' 0 8

/-- `nnn = op[11:0]`. -/
def fieldNnn (op : Word) : Addr12 := op.extractLsb' 0 12

/-- Why the decoder reads no instruction. -/
inductive DecodeError where
  /-- An unrecognised low nibble in group 0x8 (`30_encoding.md` R75, R80). -/
  | secondary8 (op : Word)
  /-- An unrecognised low byte in group 0xE (R76, R80). -/
  | secondaryE (op : Word)
  /-- An unrecognised low byte in group 0xF (R77, R80). -/
  | secondaryF (op : Word)
  /-- Fewer than the two bytes every instruction has (R70). -/
  | truncated
deriving DecidableEq, Repr

/-! ### Secondary decode, one function per group (R74 to R77) -/

/-- Group 0x0: the low byte selects; `SYS` is the default of the group (R74). -/
def decodeGroup0 (op : Word) : Instr :=
  if fieldKk op = 0xE0#8 then .cls
  else if fieldKk op = 0xEE#8 then .ret
  else .sys (fieldNnn op)

/-- Group 0x8: the low nibble selects (R75). -/
def decodeGroup8 (op : Word) : Except DecodeError Instr :=
  let x := fieldX op
  let y := fieldY op
  if fieldN op = 0x0#4 then .ok (.ldVxVy x y)
  else if fieldN op = 0x1#4 then .ok (.orVxVy x y)
  else if fieldN op = 0x2#4 then .ok (.andVxVy x y)
  else if fieldN op = 0x3#4 then .ok (.xorVxVy x y)
  else if fieldN op = 0x4#4 then .ok (.addVxVy x y)
  else if fieldN op = 0x5#4 then .ok (.subVxVy x y)
  else if fieldN op = 0x6#4 then .ok (.shrVx x)
  else if fieldN op = 0x7#4 then .ok (.subnVxVy x y)
  else if fieldN op = 0xE#4 then .ok (.shlVx x)
  else .error (.secondary8 op)

/-- Group 0xE: the low byte selects (R76). -/
def decodeGroupE (op : Word) : Except DecodeError Instr :=
  let x := fieldX op
  if fieldKk op = 0x9E#8 then .ok (.skpVx x)
  else if fieldKk op = 0xA1#8 then .ok (.sknpVx x)
  else .error (.secondaryE op)

/-- Group 0xF: the low byte selects (R77). -/
def decodeGroupF (op : Word) : Except DecodeError Instr :=
  let x := fieldX op
  if fieldKk op = 0x07#8 then .ok (.ldVxDt x)
  else if fieldKk op = 0x0A#8 then .ok (.ldVxK x)
  else if fieldKk op = 0x15#8 then .ok (.ldDtVx x)
  else if fieldKk op = 0x18#8 then .ok (.ldStVx x)
  else if fieldKk op = 0x1E#8 then .ok (.addIVx x)
  else if fieldKk op = 0x29#8 then .ok (.ldFVx x)
  else if fieldKk op = 0x33#8 then .ok (.ldBVx x)
  else if fieldKk op = 0x55#8 then .ok (.ldMemVx x)
  else if fieldKk op = 0x65#8 then .ok (.ldVxMem x)
  else .error (.secondaryF op)

/-- The decode function of `30_encoding.md` R81: total on the 65536 words, a pure function of the
word. Primary codes 0x5 and 0x9 ignore the low nibble (R78). -/
def decode (op : Word) : Except DecodeError Instr :=
  match (fieldPrimary op).toNat with
  | 0x0 => .ok (decodeGroup0 op)
  | 0x1 => .ok (.jp (fieldNnn op))
  | 0x2 => .ok (.call (fieldNnn op))
  | 0x3 => .ok (.seVxKk (fieldX op) (fieldKk op))
  | 0x4 => .ok (.sneVxKk (fieldX op) (fieldKk op))
  | 0x5 => .ok (.seVxVy (fieldX op) (fieldY op))
  | 0x6 => .ok (.ldVxKk (fieldX op) (fieldKk op))
  | 0x7 => .ok (.addVxKk (fieldX op) (fieldKk op))
  | 0x8 => decodeGroup8 op
  | 0x9 => .ok (.sneVxVy (fieldX op) (fieldY op))
  | 0xA => .ok (.ldINnn (fieldNnn op))
  | 0xB => .ok (.jpV0Nnn (fieldNnn op))
  | 0xC => .ok (.rndVxKk (fieldX op) (fieldKk op))
  | 0xD => .ok (.drwVxVyN (fieldX op) (fieldY op) (fieldN op))
  | 0xE => decodeGroupE op
  | _ => decodeGroupF op

/-- The instruction at the head of a list of bytes, and the bytes after it. The first byte is the
high byte of the word (`20_memory.md` R55, `30_encoding.md` R70). -/
def decodeBytes : List Byte → Except DecodeError (Instr × List Byte)
  | hi :: lo :: rest =>
    match decode (hi ++ lo) with
    | .ok i => .ok (i, rest)
    | .error e => .error e
  | [_] => .error .truncated
  | [] => .error .truncated

/-! ### The encoder (formats of R71, numbers of R79) -/

/-- Format `NNN`. -/
def formatNnn (code : Nibble) (nnn : Addr12) : Word := code ++ nnn

/-- Formats `XKK`, `X` and `Z`: a primary code, a nibble, a low byte. -/
def formatXkk (code : Nibble) (x : Nibble) (kk : Byte) : Word := code ++ x ++ kk

/-- Formats `XY` and `XYN`. -/
def formatXyn (code : Nibble) (x y n : Nibble) : Word := code ++ x ++ y ++ n

/-- The canonical word of a well-formed instruction (R79; ignored fields are 0, R82). -/
def encode : Instr → Word
  | .sys nnn => formatNnn 0x0#4 nnn
  | .cls => formatXkk 0x0#4 0x0#4 0xE0#8
  | .ret => formatXkk 0x0#4 0x0#4 0xEE#8
  | .jp nnn => formatNnn 0x1#4 nnn
  | .call nnn => formatNnn 0x2#4 nnn
  | .seVxKk x kk => formatXkk 0x3#4 x kk
  | .sneVxKk x kk => formatXkk 0x4#4 x kk
  | .seVxVy x y => formatXyn 0x5#4 x y 0x0#4
  | .ldVxKk x kk => formatXkk 0x6#4 x kk
  | .addVxKk x kk => formatXkk 0x7#4 x kk
  | .ldVxVy x y => formatXyn 0x8#4 x y 0x0#4
  | .orVxVy x y => formatXyn 0x8#4 x y 0x1#4
  | .andVxVy x y => formatXyn 0x8#4 x y 0x2#4
  | .xorVxVy x y => formatXyn 0x8#4 x y 0x3#4
  | .addVxVy x y => formatXyn 0x8#4 x y 0x4#4
  | .subVxVy x y => formatXyn 0x8#4 x y 0x5#4
  | .shrVx x => formatXyn 0x8#4 x 0x0#4 0x6#4
  | .subnVxVy x y => formatXyn 0x8#4 x y 0x7#4
  | .shlVx x => formatXyn 0x8#4 x 0x0#4 0xE#4
  | .sneVxVy x y => formatXyn 0x9#4 x y 0x0#4
  | .ldINnn nnn => formatNnn 0xA#4 nnn
  | .jpV0Nnn nnn => formatNnn 0xB#4 nnn
  | .rndVxKk x kk => formatXkk 0xC#4 x kk
  | .drwVxVyN x y n => formatXyn 0xD#4 x y n
  | .skpVx x => formatXkk 0xE#4 x 0x9E#8
  | .sknpVx x => formatXkk 0xE#4 x 0xA1#8
  | .ldVxDt x => formatXkk 0xF#4 x 0x07#8
  | .ldVxK x => formatXkk 0xF#4 x 0x0A#8
  | .ldDtVx x => formatXkk 0xF#4 x 0x15#8
  | .ldStVx x => formatXkk 0xF#4 x 0x18#8
  | .addIVx x => formatXkk 0xF#4 x 0x1E#8
  | .ldFVx x => formatXkk 0xF#4 x 0x29#8
  | .ldBVx x => formatXkk 0xF#4 x 0x33#8
  | .ldMemVx x => formatXkk 0xF#4 x 0x55#8
  | .ldVxMem x => formatXkk 0xF#4 x 0x65#8

/-- The two bytes of a word as memory holds them, high byte first (`20_memory.md` R55). -/
def wordBytes (op : Word) : List Byte := [op.extractLsb' 8 8, op.extractLsb' 0 8]

/-- A number of the opcode table as an instruction word: every instruction is one 16-bit word
(`30_encoding.md` R70), a bit above the `nbits` given is 0. -/
def tableWord (nbits w : Nat) : Word := BitVec.ofNat 16 (w % 2 ^ nbits)

/-- The instruction this decoder reads from the word `w` of the opcode table, laid out as the
hardware stores it. -/
def decodeTableWord (nbits w : Nat) : Option Instr :=
  match decodeBytes (wordBytes (tableWord nbits w)) with
  | .ok (i, _) => some i
  | .error _ => none

/-! ### The rows of the opcode map (R79): the words of a row are those with `op & mask = match` -/

/-- The `mask` column of R79. -/
def tableMask : Instr → Word
  | .sys _ => 0xF000#16
  | .cls => 0xF0FF#16
  | .ret => 0xF0FF#16
  | .jp _ => 0xF000#16
  | .call _ => 0xF000#16
  | .seVxKk _ _ => 0xF000#16
  | .sneVxKk _ _ => 0xF000#16
  | .seVxVy _ _ => 0xF000#16
  | .ldVxKk _ _ => 0xF000#16
  | .addVxKk _ _ => 0xF000#16
  | .ldVxVy _ _ => 0xF00F#16
  | .orVxVy _ _ => 0xF00F#16
  | .andVxVy _ _ => 0xF00F#16
  | .xorVxVy _ _ => 0xF00F#16
  | .addVxVy _ _ => 0xF00F#16
  | .subVxVy _ _ => 0xF00F#16
  | .shrVx _ => 0xF00F#16
  | .subnVxVy _ _ => 0xF00F#16
  | .shlVx _ => 0xF00F#16
  | .sneVxVy _ _ => 0xF000#16
  | .ldINnn _ => 0xF000#16
  | .jpV0Nnn _ => 0xF000#16
  | .rndVxKk _ _ => 0xF000#16
  | .drwVxVyN _ _ _ => 0xF000#16
  | .skpVx _ => 0xF0FF#16
  | .sknpVx _ => 0xF0FF#16
  | .ldVxDt _ => 0xF0FF#16
  | .ldVxK _ => 0xF0FF#16
  | .ldDtVx _ => 0xF0FF#16
  | .ldStVx _ => 0xF0FF#16
  | .addIVx _ => 0xF0FF#16
  | .ldFVx _ => 0xF0FF#16
  | .ldBVx _ => 0xF0FF#16
  | .ldMemVx _ => 0xF0FF#16
  | .ldVxMem _ => 0xF0FF#16

/-- The `match` column of R79. -/
def tableMatch : Instr → Word
  | .sys _ => 0x0000#16
  | .cls => 0x00E0#16
  | .ret => 0x00EE#16
  | .jp _ => 0x1000#16
  | .call _ => 0x2000#16
  | .seVxKk _ _ => 0x3000#16
  | .sneVxKk _ _ => 0x4000#16
  | .seVxVy _ _ => 0x5000#16
  | .ldVxKk _ _ => 0x6000#16
  | .addVxKk _ _ => 0x7000#16
  | .ldVxVy _ _ => 0x8000#16
  | .orVxVy _ _ => 0x8001#16
  | .andVxVy _ _ => 0x8002#16
  | .xorVxVy _ _ => 0x8003#16
  | .addVxVy _ _ => 0x8004#16
  | .subVxVy _ _ => 0x8005#16
  | .shrVx _ => 0x8006#16
  | .subnVxVy _ _ => 0x8007#16
  | .shlVx _ => 0x800E#16
  | .sneVxVy _ _ => 0x9000#16
  | .ldINnn _ => 0xA000#16
  | .jpV0Nnn _ => 0xB000#16
  | .rndVxKk _ _ => 0xC000#16
  | .drwVxVyN _ _ _ => 0xD000#16
  | .skpVx _ => 0xE09E#16
  | .sknpVx _ => 0xE0A1#16
  | .ldVxDt _ => 0xF007#16
  | .ldVxK _ => 0xF00A#16
  | .ldDtVx _ => 0xF015#16
  | .ldStVx _ => 0xF018#16
  | .addIVx _ => 0xF01E#16
  | .ldFVx _ => 0xF029#16
  | .ldBVx _ => 0xF033#16
  | .ldMemVx _ => 0xF055#16
  | .ldVxMem _ => 0xF065#16

end Sys2Proof
end

