-- ==== Sys2Proof/Config.lean ====
section
/-! DEFINITION. Config.lean: the parameters of `00_scope.md` R5: those the document fixes as constants,
those that are decisions as an argument (`Params`) with the spec's defaults; and the free values:
constants WITHOUT A BODY, about which nothing can be proved but what holds of every value. -/

namespace Sys2Proof.Config

/-- `MEM_SIZE`, bytes of the address space (`00_scope.md` R5, `20_memory.md` R50). -/
def memSize : Nat := 4096

/-- The default of `PROGRAM_START` (`00_scope.md` R5, D1; the number is the spec's, from general
knowledge: log 8). -/
def programStart : Nat := 0x200

/-- `ROM_MAX`, the longest program image (`00_scope.md` R5, `90_conflicts.md` C1). -/
def romMax : Nat := 3583

/-- The `FONT_START` beside the other defaults. The spec leaves it OPEN (`00_scope.md` R5, D2): any value
with `FONT_START + 80 <= PROGRAM_START`, so 0 to 432. A free value (log 2). -/
opaque fontStart : Fin 433

/-- The default `FONT[0..79]`: the glyphs of `20_memory.md` R59, five rows each, digit 0 first. -/
def font : Vector Byte 80 := #v[
  0xF0#8, 0x90#8, 0x90#8, 0x90#8, 0xF0#8,  0x20#8, 0x60#8, 0x20#8, 0x20#8, 0x70#8,
  0xF0#8, 0x10#8, 0xF0#8, 0x80#8, 0xF0#8,  0xF0#8, 0x10#8, 0xF0#8, 0x10#8, 0xF0#8,
  0x90#8, 0x90#8, 0xF0#8, 0x10#8, 0x10#8,  0xF0#8, 0x80#8, 0xF0#8, 0x10#8, 0xF0#8,
  0xF0#8, 0x80#8, 0xF0#8, 0x90#8, 0xF0#8,  0xF0#8, 0x10#8, 0x20#8, 0x40#8, 0x40#8,
  0xF0#8, 0x90#8, 0xF0#8, 0x90#8, 0xF0#8,  0xF0#8, 0x90#8, 0xF0#8, 0x10#8, 0xF0#8,
  0xF0#8, 0x90#8, 0xF0#8, 0x90#8, 0x90#8,  0xE0#8, 0x90#8, 0xE0#8, 0x90#8, 0xE0#8,
  0xF0#8, 0x80#8, 0x80#8, 0x80#8, 0xF0#8,  0xE0#8, 0x90#8, 0x90#8, 0x90#8, 0xE0#8,
  0xF0#8, 0x80#8, 0xF0#8, 0x80#8, 0xF0#8,  0xF0#8, 0x80#8, 0xF0#8, 0x80#8, 0x80#8]

/-- `KEYWAIT_EXTRA_TICK`: in which steps the key-wait handler ticks the timers itself
(`45_keypad_timers_random.md` R168, D18). -/
inductive KeyWaitExtraTick where
  /-- In the steps that find no key (the default). -/
  | whenNoKey
  /-- Also in the step that finds a key. -/
  | always
  /-- In no step. -/
  | never
deriving DecidableEq, Repr

/-- The default of `KEYWAIT_EXTRA_TICK` (`00_scope.md` R5, R168, `90_conflicts.md` C2; log 4). -/
def keyWaitExtraTick : KeyWaitExtraTick := .whenNoKey

/-- The parameters that `00_scope.md` R5 makes an argument of the machine. Each bound is the one that
`PROGRAM_START + ROM_MAX <= MEM_SIZE` and `FONT_START + 80 <= PROGRAM_START` give the parameter by
itself: at most 513 and 433 (log 13). -/
structure Params where
  /-- `PROGRAM_START` (D1). -/
  programStart : Fin 514
  /-- `FONT_START` (D2). -/
  fontStart : Fin 434
  /-- `KEYWAIT_EXTRA_TICK` (D18). -/
  keyWaitExtraTick : KeyWaitExtraTick
deriving DecidableEq, Repr

/-- The constraints between the parameters (`00_scope.md` R5). -/
abbrev Params.ok (p : Params) : Prop :=
  p.fontStart.val + 80 ≤ p.programStart.val ∧ p.programStart.val + romMax ≤ memSize

/-- The defaults of `00_scope.md` R5. -/
def defaults : Params where
  programStart := ⟨programStart, by decide⟩
  fontStart := ⟨fontStart.val, Nat.lt_succ_of_lt fontStart.isLt⟩
  keyWaitExtraTick := keyWaitExtraTick

/-- The keypad sample of step number `k` where the state does not list it: a free value
(`10_state.md` R31, `40_engine_step.md` R97; log 1). -/
opaque freeKeys : Nat → Word

/-- The random byte of step number `k` where the state does not list it: a free value
(`10_state.md` R32, `40_engine_step.md` R98; log 1). -/
opaque freeRnd : Nat → Byte

end Sys2Proof.Config
end

