-- ==== Sys2Proof/Machine/State.lean ====
section
/-! DEFINITION. State.lean: all the state of `10_state.md` R20 as plain data, the two fields that carry
what the driver supplies with the steps (log 1), the machine's parameters (log 13), the reasons a step can stop, and reset (R35,
`70_reset_and_hazards.md` R190). -/

namespace Sys2Proof.Machine

/-- The two states of the engine (`10_state.md` R30); `awaitingKey` latches the destination register
of the waiting `LD Vx, K`. -/
inductive Mode where
  | running
  | awaitingKey (x : Reg)
deriving DecidableEq, Repr

/-- What the driver supplies with one step (`40_engine_step.md` R96 to R98): bit `k` of `keys` is 1
when key `k` is pressed. -/
structure Sample where
  keys : Word
  rnd : Byte
deriving DecidableEq, Repr

/-- Memory in ONE canonical form: addresses strictly rising, no entry 0, since an unlisted address
reads 0, the reset content of `10_state.md` R35. -/
abbrev Memory := List Host.Cell

/-- The whole state (`10_state.md` R20). `inputs` and `inputNo` are the model's own (log 1),
and so is `params` (log 13). -/
structure State where
  /-- `V[0..15]` (R21). -/
  v : Vector Byte 16
  /-- The index register `I` (R23). -/
  i : Word
  /-- The program counter (R24). -/
  pc : Word
  /-- The call stack (R25). -/
  stack : Vector Word 16
  /-- Entries of the call stack in use, 0 to 16 (R26). -/
  sp : Fin 17
  /-- The delay timer (R27). -/
  dt : Byte
  /-- The sound timer (R28). -/
  st : Byte
  /-- The framebuffer, `fb[row][col]`, `true` = on (R29). -/
  fb : Vector (Vector Bool 64) 32
  /-- `Running` or `AwaitingKey(x)` (R30). -/
  mode : Mode
  /-- `mem[0..4095]` (R33, `20_memory.md` R50). -/
  mem : Memory
  /-- The samples the driver is going to supply, the coming step's first; where the list ends the
  samples are free values (log 1). -/
  inputs : List Sample
  /-- How many samples have been used: the argument of the free values (log 1). -/
  inputNo : Nat
  /-- The parameters of this machine (`00_scope.md` R5); no step writes them (log 13). -/
  params : Config.Params
deriving DecidableEq, Repr

/-- A machine with these parameters right after reset, before boot (`10_state.md` R35,
`70_reset_and_hazards.md` R190). -/
def State.resetWith (p : Config.Params) : State where
  v := Vector.replicate 16 0#8
  i := 0#16
  pc := BitVec.ofNat 16 p.programStart.val
  stack := Vector.replicate 16 0#16
  sp := 0
  dt := 0#8
  st := 0#8
  fb := Vector.replicate 32 (Vector.replicate 64 false)
  mode := .running
  mem := []
  inputs := []
  inputNo := 0
  params := p

/-- The machine right after reset, its parameters the defaults of `00_scope.md` R5. -/
def State.reset : State := State.resetWith Config.defaults

/-- The fault conditions of `60_exceptions.md` R170 and R182. A fault ends the run (R177); a
step-level one carries the state the faulting step left, since the writes made before it stay
(R176; log 3). -/
inductive Fault where
  /-- Code 1, with the offending address. Raised by fetch, `DRW`, `LD B, Vx`, `LD [I], Vx` and
  `LD Vx, [I]` (R171). Safe: the spec raises it. -/
  | addressOutOfRange (addr : Nat) (left : State)
  /-- Code 2. Raised by `CALL nnn` with a full stack (R172). Safe: the spec raises it. -/
  | stackOverflow (left : State)
  /-- Code 3. Raised by `RET` with an empty stack (R173). Safe: the spec raises it. -/
  | stackUnderflow (left : State)
  /-- Code 4, with the word. Raised by decode on an illegal word (R174). Safe: the spec raises it. -/
  | invalidOpcode (op : Word) (left : State)
  /-- Code 5, with the value of `V[x]`. Raised by `SKP Vx` and `SKNP Vx` (R175). Safe: the spec
  raises it. -/
  | keyIndexOutOfRange (k : Byte) (left : State)
  /-- Raised by the boot operation `loadProgram` alone, with the image's length (R182,
  `70_reset_and_hazards.md` R194); the engine is never stepped after it. Safe: the spec raises it. -/
  | romTooLarge (len : Nat)
deriving DecidableEq, Repr

/-- Why the model gives no meaning. -/
inductive Refusal where
  /-- An instruction `exec` rejects by name, with its mnemonic; raised by `exec` alone. Safe. -/
  | notModelled (mnemonic : String)
deriving DecidableEq, Repr

/-- What an operation over the state answers. -/
abbrev Result := Host.Outcome State Fault Refusal

end Sys2Proof.Machine
end

