-- ==== Sys2Proof/Machine/Ops.lean ====
section
/-! DEFINITION. Ops.lean: the named operations over memory, registers, stack, timers, screen, inputs
and program counter (the primitives of `00_scope.md` R7), raising a fault (`60_exceptions.md` R176),
the key wait (`45_keypad_timers_random.md` R168), what surrounds an instruction in a step
(`40_engine_step.md` R90 to R95), and the boot operations (`70_reset_and_hazards.md` R193 to R195). -/

namespace Sys2Proof.Machine

/-! ### Memory as a list in canonical form -/

/-- The byte at an address: the listed one, else 0 (`10_state.md` R35). -/
def Memory.load : Memory → Nat → Byte
  | [], _ => 0#8
  | (k, b) :: m, a => if k = a then b else Memory.load m a

/-- Drop what is listed at an address. -/
def Memory.erase (m : Memory) (a : Nat) : Memory := m.filter fun c => c.1 != a

/-- List a byte at its place in rising order, replacing what stands there. -/
def Memory.insert : Memory → Nat → Byte → Memory
  | [], a, b => [(a, b)]
  | (k, c) :: m, a, b =>
    if k < a then (k, c) :: Memory.insert m a b
    else if k = a then (a, b) :: m
    else (a, b) :: (k, c) :: m

/-- Write a byte: writing 0 removes the entry, so that equal memories are equal lists. -/
def Memory.store (m : Memory) (a : Nat) (b : Byte) : Memory :=
  if b = 0#8 then Memory.erase m a else Memory.insert m a b

/-- The canonical form: addresses strictly rising, inside the address space, no entry 0. -/
abbrev Memory.wf (m : Memory) : Prop :=
  m.Pairwise (fun c d => c.1 < d.1) ∧ ∀ c ∈ m, c.1 < Config.memSize ∧ c.2 ≠ 0#8

/-! ### Registers, stack entries, pixels, inputs -/

/-- `V[r]` (`10_state.md` R21: no register is hard-wired). -/
def State.getV (s : State) (r : Reg) : Byte := s.v[r.toNat]

/-- `V[r] <- b`. -/
def State.setV (s : State) (r : Reg) (b : Byte) : State := { s with v := s.v.set r.toNat b }

/-- The index of the flag register `VF` (`10_state.md` R22). -/
def vf : Reg := 0xF#4

/-- `I <- w`. -/
def State.setI (s : State) (w : Word) : State := { s with i := w }

/-- `pc <- w`. -/
def State.setPc (s : State) (w : Word) : State := { s with pc := w }

/-- `DT <- b`. -/
def State.setDt (s : State) (b : Byte) : State := { s with dt := b }

/-- `ST <- b`. -/
def State.setSt (s : State) (b : Byte) : State := { s with st := b }

/-- `mode <- m`. -/
def State.setMode (s : State) (m : Mode) : State := { s with mode := m }

/-- Stack entry `k` (`10_state.md` R25). -/
def State.stackAt (s : State) (k : Fin 16) : Word := s.stack[k.val]

/-- `fb[row][col]` (`10_state.md` R29). -/
def State.pixel (s : State) (row : Fin 32) (col : Fin 64) : Bool := s.fb[row.val][col.val]

/-- `fb[row][col] <- on`. -/
def State.setPixel (s : State) (row : Fin 32) (col : Fin 64) (on : Bool) : State :=
  { s with fb := s.fb.set row.val (s.fb[row.val].set col.val on) }

/-- Every pixel off (`44_display.md` R151). -/
def State.clearScreen (s : State) : State :=
  { s with fb := Vector.replicate 32 (Vector.replicate 64 false) }

/-- The byte of memory at an address, as the machine reads it. -/
def State.byteAt (s : State) (a : Nat) : Byte := Memory.load s.mem a

/-- The byte of memory at an address replaced. -/
def State.setByte (s : State) (a : Nat) (b : Byte) : State := { s with mem := Memory.store s.mem a b }

/-- What the driver supplies with this step: the listed sample, else free values
(`40_engine_step.md` R97, R98; log 1). -/
def State.sample (s : State) : Sample :=
  match s.inputs with
  | [] => { keys := Config.freeKeys s.inputNo, rnd := Config.freeRnd s.inputNo }
  | p :: _ => p

/-- `keys` of this step (`40_engine_step.md` R97). -/
def State.keys (s : State) : Word := s.sample.keys

/-- `rnd` of this step (`40_engine_step.md` R98). -/
def State.rnd (s : State) : Byte := s.sample.rnd

/-- `keys[k] = 1`. -/
def State.keyDown (s : State) (k : Nat) : Bool := s.keys.getLsbD k

/-! ### Access to memory and to the call stack -/

/-- `raise`-ing is ending the step at once, the state left being the one reached
(`60_exceptions.md` R176): go on only from a next state. -/
def andThen (r : Result) (k : State → Result) : Result :=
  match r with
  | .next s => k s
  | .fault f => .fault f
  | .refused u => .refused u

/-- `MemRead(a, 1)`, handing the byte on (`00_scope.md` R7, `20_memory.md` R52). -/
def memRead (a : Nat) (s : State) (k : Byte → Result) : Result :=
  if a < Config.memSize then k (s.byteAt a) else .fault (.addressOutOfRange a s)

/-- `MemWrite(a, 1, b)` (`00_scope.md` R7, `20_memory.md` R52). -/
def memWrite (a : Nat) (b : Byte) (s : State) : Result :=
  if a < Config.memSize then .next (s.setByte a b) else .fault (.addressOutOfRange a s)

/-- `Push(w)`, handing the state on (`00_scope.md` R7, `10_state.md` R26). -/
def push (w : Word) (s : State) (k : State → Result) : Result :=
  if h : s.sp.val < 16 then
    k { s with stack := s.stack.set s.sp.val w, sp := ⟨s.sp.val + 1, by omega⟩ }
  else .fault (.stackOverflow s)

/-- `Pop()`, handing the popped value and the state on (`00_scope.md` R7, `10_state.md` R26). -/
def pop (s : State) (k : Word → State → Result) : Result :=
  if h : 0 < s.sp.val then
    k (s.stack[s.sp.val - 1]'(by omega)) { s with sp := ⟨s.sp.val - 1, by omega⟩ }
  else .fault (.stackUnderflow s)

/-- Consecutive bytes written from an address up, each checked on its own (`20_memory.md` R52,
`43_index_memory.md` R140). -/
def storeBytes : Nat → List Byte → State → Result
  | _, [], s => .next s
  | a, b :: bs, s => andThen (memWrite a b s) (storeBytes (a + 1) bs)

/-- Registers loaded from consecutive bytes from an address up, each checked on its own
(`20_memory.md` R52, `43_index_memory.md` R140). -/
def loadRegs : Nat → List Reg → State → Result
  | _, [], s => .next s
  | a, r :: rs, s => memRead a s fun b => loadRegs (a + 1) rs (s.setV r b)

/-! ### Program counter -/

/-- `pc <- pc + 2` (`40_engine_step.md` R91; the extra 2 of a skip, `41_control_flow.md` R100). -/
def State.advance (s : State) : State := s.setPc (s.pc + 2#16)

/-- A skip: 2 more when the condition holds (`41_control_flow.md` R100, R105). -/
def State.skipIf (s : State) (c : Bool) : State := s.setPc (if c then s.pc + 2#16 else s.pc)

/-! ### Timers and the key wait -/

/-- A timer's decrement, stopping at 0 (`10_state.md` R27). -/
def countDown (t : Byte) : Byte := if t = 0#8 then 0#8 else t - 1#8

/-- `Tick()` (`40_engine_step.md` R94). -/
def State.tick (s : State) : State := { s with dt := countDown s.dt, st := countDown s.st }

/-- The least `k` with `keys[k] = 1` (`45_keypad_timers_random.md` R168). -/
def lowestKey (keys : Word) : Option Nibble :=
  ((List.range 16).find? fun k => keys.getLsbD k).map (BitVec.ofNat 4)

/-- `KeyWait(x, keys)` under a value of `KEYWAIT_EXTRA_TICK` (`45_keypad_timers_random.md` R168). -/
def keyWaitWith (extra : Config.KeyWaitExtraTick) (x : Reg) (s : State) : State :=
  match lowestKey s.keys with
  | some k =>
    let t := (s.setV x (k.setWidth 8)).setMode .running
    if extra = .always then t.tick else t
  | none =>
    let t := s.setMode (.awaitingKey x)
    if extra = .never then t else t.tick

/-- `KeyWait(x, keys)` under the machine's own `KEYWAIT_EXTRA_TICK` (`00_scope.md` R5; logs 4, 13). -/
def keyWait (x : Reg) (s : State) : State := keyWaitWith s.params.keyWaitExtraTick x s

/-! ### What surrounds an instruction in a step -/

/-- Fetch (`40_engine_step.md` R91): two checked reads, high byte first (`20_memory.md` R55), then
the advance; a fetch fault leaves the state as it was. -/
def fetch (s : State) (k : Word → State → Result) : Result :=
  memRead s.pc.toNat s fun hi =>
    memRead (s.pc.toNat + 1) s fun lo => k (hi ++ lo) s.advance

/-- `raise InvalidOpcode(op)` after the advance (`40_engine_step.md` R92, `60_exceptions.md` R174). -/
def illegal (op : Word) (s : State) : Result := .fault (.invalidOpcode op s)

/-- The step's sample is used up; the next step takes the next one (`40_engine_step.md` R97; log 1). -/
def State.dropSample (s : State) : State :=
  { s with inputs := s.inputs.tail, inputNo := s.inputNo + 1 }

/-- The end of a step that did not fault: the tick (`40_engine_step.md` R94), then the next sample. -/
def State.endStep (s : State) : State := s.tick.dropSample

/-- A faulting step ends where it is, with no tick (`40_engine_step.md` R94, `60_exceptions.md` R176). -/
def finish (r : Result) : Result := andThen r fun s => .next s.endStep

/-- What a step that ended in this fault reports: the code (`60_exceptions.md` R170; boot's
`RomTooLarge` has none, R182). -/
def Fault.code : Fault → Option Nat
  | .addressOutOfRange _ _ => some 1
  | .stackOverflow _ => some 2
  | .stackUnderflow _ => some 3
  | .invalidOpcode _ _ => some 4
  | .keyIndexOutOfRange _ _ => some 5
  | .romTooLarge _ => none

/-- The state a faulting step left (`60_exceptions.md` R176); a rejected load has none of its own. -/
def Fault.left : Fault → Option State
  | .addressOutOfRange _ s => some s
  | .stackOverflow s => some s
  | .stackUnderflow s => some s
  | .invalidOpcode _ s => some s
  | .keyIndexOutOfRange _ s => some s
  | .romTooLarge _ => none

/-! ### Boot, done by the host before the first step (`70_reset_and_hazards.md` R193) -/

/-- Bytes placed from an address up, by the host. -/
def State.place (s : State) : Nat → List Byte → State
  | _, [] => s
  | a, b :: bs => State.place (s.setByte a b) (a + 1) bs

/-- `PROGRAM_START` as an address (`00_scope.md` R5; log 13). -/
def State.programStart (s : State) : Nat := s.params.programStart.val

/-- `FONT_START` as an address (`00_scope.md` R5; logs 2, 13). -/
def State.fontStart (s : State) : Nat := s.params.fontStart.val

/-- `load_font(glyphs)` (`70_reset_and_hazards.md` R195). -/
def loadFont (glyphs : Vector Byte 80) (s : State) : State := s.place s.fontStart glyphs.toList

/-- `load(image)` (`70_reset_and_hazards.md` R194): a longer image is rejected and writes nothing. -/
def loadProgram (image : List Byte) (s : State) : Result :=
  if image.length ≤ Config.romMax then .next (s.place s.programStart image)
  else .fault (.romTooLarge image.length)

/-- Reset, then the font, then the program (`70_reset_and_hazards.md` R193), the font and the
parameters of `00_scope.md` R5 being arguments with the spec's defaults. -/
def boot (image : List Byte) (glyphs : Vector Byte 80 := Config.font)
    (p : Config.Params := Config.defaults) : Result :=
  loadProgram image (loadFont glyphs (State.resetWith p))

end Sys2Proof.Machine
end

