-- ==== Sys2Proof/Machine/Operands.lean ====
section
/-! DEFINITION. Operands.lean: how the operands of an instruction become values and addresses
(`30_encoding.md` R72, `20_memory.md` R53, `43_index_memory.md` R140 to R145, `44_display.md` R150). -/

namespace Sys2Proof.Machine

/-- `zext_16(nnn)`: an absolute byte address (`30_encoding.md` R72). -/
def target (nnn : Addr12) : Word := nnn.setWidth 16

/-- `zext_16(V[x])`. -/
def State.getVWord (s : State) (x : Reg) : Word := (s.getV x).setWidth 16

/-- The effective address of byte `k` of an `I`-relative access, never reduced (`20_memory.md` R53). -/
def State.addr (s : State) (k : Nat) : Nat := s.i.toNat + k

/-- `V0` to `Vx`, `x` included, in ascending order (`43_index_memory.md` R145, R146). -/
def regsUpTo (x : Reg) : List Reg := (List.range (x.toNat + 1)).map (BitVec.ofNat 4)

/-- `FONT_START + 5 * V`, on the whole byte (`43_index_memory.md` R143). -/
def State.glyphAddr (s : State) (v : Byte) : Word := BitVec.ofNat 16 (s.fontStart + 5 * v.toNat)

/-- The decimal digits of a byte, hundreds first (`43_index_memory.md` R144). -/
def bcdDigits (v : Byte) : List Byte :=
  [BitVec.ofNat 8 (v.toNat / 100), BitVec.ofNat 8 (v.toNat / 10 % 10), BitVec.ofNat 8 (v.toNat % 10)]

/-- A row of the screen, reduced modulo 32 (`44_display.md` R150). -/
def screenRow (k : Nat) : Fin 32 := ⟨k % 32, by omega⟩

/-- A column of the screen, reduced modulo 64 (`44_display.md` R150). -/
def screenCol (k : Nat) : Fin 64 := ⟨k % 64, by omega⟩

/-- Sprite column `c` of a sprite row is bit `7 - c` of its byte (`44_display.md` R150, R152). -/
def spriteBit (b : Byte) (c : Nat) : Bool := b.getLsbD (7 - c)

end Sys2Proof.Machine
end

