-- ==== Sys2Proof/Machine/Flags.lean ====
section
/-! DEFINITION. Flags.lean: the flag computations of `10_state.md` R22 and `42_alu.md` R127 to R131,
each from the values read before any write (R120), and the two write orders of R120. -/

namespace Sys2Proof.Machine

/-- A flag is always 0 or 1 (`10_state.md` R22). -/
def flagByte (c : Bool) : Byte := if c then 1#8 else 0#8

/-- `VF <- c`. -/
def State.setFlag (s : State) (c : Bool) : State := s.setV vf (flagByte c)

/-- The carry of `a + b` (`42_alu.md` R127). -/
def carryOut (a b : Byte) : Bool := 255 < a.toNat + b.toNat

/-- The flag of a subtraction: minuend STRICTLY greater than subtrahend (`42_alu.md` R128, R130). -/
def strictlyGreater (a b : Byte) : Bool := b.toNat < a.toNat

/-- The bit a right shift loses (`42_alu.md` R129). -/
def oldBit0 (a : Byte) : Bool := a.getLsbD 0

/-- The bit a left shift loses (`42_alu.md` R131). -/
def oldBit7 (a : Byte) : Bool := a.getLsbD 7

/-- Result first, flag second: the flag stands when `x = 15` (`42_alu.md` R120, `ADD Vx, Vy`). -/
def State.resultThenFlag (s : State) (x : Reg) (result : Byte) (c : Bool) : State :=
  (s.setV x result).setFlag c

/-- Flag first, result second: the result stands when `x = 15` (`42_alu.md` R120, the subtractions
and shifts; log 6). -/
def State.flagThenResult (s : State) (x : Reg) (result : Byte) (c : Bool) : State :=
  (s.setFlag c).setV x result

end Sys2Proof.Machine
end

