-- ==== Sys2Proof/Machine/Alu.lean ====
section
/-! DEFINITION. Alu.lean: the eleven instructions of `42_alu.md`. None can raise a fault (R132); the
operands are read before any write (R120). -/

namespace Sys2Proof.Machine

/-- `LD Vx, kk` (`42_alu.md` R121). -/
def execLdVxKk (x : Reg) (kk : Byte) (s : State) : Result := .next (s.setV x kk)

/-- `ADD Vx, kk`: modulo 256, no flag (`42_alu.md` R122). -/
def execAddVxKk (x : Reg) (kk : Byte) (s : State) : Result := .next (s.setV x (s.getV x + kk))

/-- `LD Vx, Vy` (`42_alu.md` R123). -/
def execLdVxVy (x y : Reg) (s : State) : Result := .next (s.setV x (s.getV y))

/-- `OR Vx, Vy`: no flag (`42_alu.md` R124). -/
def execOrVxVy (x y : Reg) (s : State) : Result := .next (s.setV x (s.getV x ||| s.getV y))

/-- `AND Vx, Vy`: no flag (`42_alu.md` R125). -/
def execAndVxVy (x y : Reg) (s : State) : Result := .next (s.setV x (s.getV x &&& s.getV y))

/-- `XOR Vx, Vy`: no flag (`42_alu.md` R126). -/
def execXorVxVy (x y : Reg) (s : State) : Result := .next (s.setV x (s.getV x ^^^ s.getV y))

/-- `ADD Vx, Vy`: the sum, then the carry (`42_alu.md` R127). -/
def execAddVxVy (x y : Reg) (s : State) : Result :=
  let a := s.getV x
  let b := s.getV y
  .next (s.resultThenFlag x (a + b) (carryOut a b))

/-- `SUB Vx, Vy`: the flag, then `Vx - Vy` (`42_alu.md` R128). -/
def execSubVxVy (x y : Reg) (s : State) : Result :=
  let a := s.getV x
  let b := s.getV y
  .next (s.flagThenResult x (a - b) (strictlyGreater a b))

/-- `SHR Vx`: the old bit 0, then the shifted value; `y` is not an operand (`42_alu.md` R129). -/
def execShrVx (x : Reg) (s : State) : Result :=
  let a := s.getV x
  .next (s.flagThenResult x (a >>> 1) (oldBit0 a))

/-- `SUBN Vx, Vy`: the flag, then `Vy - Vx` (`42_alu.md` R130). -/
def execSubnVxVy (x y : Reg) (s : State) : Result :=
  let a := s.getV x
  let b := s.getV y
  .next (s.flagThenResult x (b - a) (strictlyGreater b a))

/-- `SHL Vx`: the old bit 7, then the shifted value; `y` is not an operand (`42_alu.md` R131). -/
def execShlVx (x : Reg) (s : State) : Result :=
  let a := s.getV x
  .next (s.flagThenResult x (a <<< 1) (oldBit7 a))

end Sys2Proof.Machine
end

