-- ==== Sys2Proof/Machine/ControlFlow.lean ====
section
/-! DEFINITION. ControlFlow.lean: the nine instructions of `41_control_flow.md`. Each runs with `pc`
already advanced (`40_engine_step.md` R91). -/

namespace Sys2Proof.Machine

/-- `SYS nnn`: implemented as the unconditional jump (`41_control_flow.md` R101). -/
def execSys (nnn : Addr12) (s : State) : Result := .next (s.setPc (target nnn))

/-- `RET` (`41_control_flow.md` R102). -/
def execRet (s : State) : Result := pop s fun w t => .next (t.setPc w)

/-- `JP nnn` (`41_control_flow.md` R103). -/
def execJp (nnn : Addr12) (s : State) : Result := .next (s.setPc (target nnn))

/-- `CALL nnn`: the advanced `pc` is pushed (`41_control_flow.md` R104). -/
def execCall (nnn : Addr12) (s : State) : Result := push s.pc s fun t => .next (t.setPc (target nnn))

/-- `SE Vx, kk` (`41_control_flow.md` R105). -/
def execSeVxKk (x : Reg) (kk : Byte) (s : State) : Result := .next (s.skipIf (s.getV x == kk))

/-- `SNE Vx, kk` (`41_control_flow.md` R106). -/
def execSneVxKk (x : Reg) (kk : Byte) (s : State) : Result := .next (s.skipIf (s.getV x != kk))

/-- `SE Vx, Vy` (`41_control_flow.md` R107). -/
def execSeVxVy (x y : Reg) (s : State) : Result := .next (s.skipIf (s.getV x == s.getV y))

/-- `SNE Vx, Vy` (`41_control_flow.md` R108). -/
def execSneVxVy (x y : Reg) (s : State) : Result := .next (s.skipIf (s.getV x != s.getV y))

/-- `JP V0, nnn`: the sum is not reduced modulo 4096 (`41_control_flow.md` R109). -/
def execJpV0Nnn (nnn : Addr12) (s : State) : Result :=
  .next (s.setPc (target nnn + s.getVWord 0x0#4))

end Sys2Proof.Machine
end

