-- ==== Sys2Proof/Machine/Display.lean ====
section
/-! DEFINITION. Display.lean: the two instructions of `44_display.md`. -/

namespace Sys2Proof.Machine

/-- One set sprite bit at its pixel: `VF <- 1` if the pixel was on, then the pixel is flipped
(`44_display.md` R152). -/
def State.flipPixel (s : State) (row : Fin 32) (col : Fin 64) : State :=
  let on := s.pixel row col
  let t := if on then s.setFlag true else s
  t.setPixel row col (!on)

/-- Sprite column `c` of a row byte: a clear bit leaves its pixel alone (`44_display.md` R152). -/
def State.drawBit (s : State) (x0 row : Nat) (b : Byte) (c : Nat) : State :=
  if spriteBit b c then s.flipPixel (screenRow row) (screenCol (x0 + c)) else s

/-- The 8 columns of one sprite row, ascending (`44_display.md` R152). -/
def State.drawRow (s : State) (x0 row : Nat) (b : Byte) : State :=
  (List.range 8).foldl (fun t c => t.drawBit x0 row b c) s

/-- Sprite rows `r`, `r + 1`, …, `left` of them, each byte read and checked on its own
(`44_display.md` R152). -/
def drawRows (x0 y0 : Nat) : Nat → Nat → State → Result
  | _, 0, s => .next s
  | r, left + 1, s =>
    memRead (s.addr r) s fun b => drawRows x0 y0 (r + 1) left (s.drawRow x0 (y0 + r) b)

/-- `CLS`: `VF` is not written (`44_display.md` R151). -/
def execCls (s : State) : Result := .next s.clearScreen

/-- `DRW Vx, Vy, n`: the origin is read before `VF` is reset (`44_display.md` R152; log 6). -/
def execDrwVxVyN (x y : Reg) (n : Nibble) (s : State) : Result :=
  let x0 := (s.getV x).toNat % 64
  let y0 := (s.getV y).toNat % 32
  drawRows x0 y0 0 n.toNat (s.setFlag false)

end Sys2Proof.Machine
end

