-- ==== Sys2Proof/Machine/Environment.lean ====
section
/-! DEFINITION. Environment.lean: the seven instructions of `45_keypad_timers_random.md`, through which
a program meets the random input, the keypad and the timers (R160). -/

namespace Sys2Proof.Machine

/-- `RND Vx, kk` (`45_keypad_timers_random.md` R161). -/
def execRndVxKk (x : Reg) (kk : Byte) (s : State) : Result := .next (s.setV x (s.rnd &&& kk))

/-- A skip on key `V[x]`, selected by the register's value and bounds-checked
(`45_keypad_timers_random.md` R162, R163, `60_exceptions.md` R175). -/
def skipOnKey (x : Reg) (pressed : Bool) (s : State) : Result :=
  if 15 < (s.getV x).toNat then .fault (.keyIndexOutOfRange (s.getV x) s)
  else .next (s.skipIf (s.keyDown (s.getV x).toNat == pressed))

/-- `SKP Vx` (`45_keypad_timers_random.md` R162). -/
def execSkpVx (x : Reg) (s : State) : Result := skipOnKey x true s

/-- `SKNP Vx` (`45_keypad_timers_random.md` R163). -/
def execSknpVx (x : Reg) (s : State) : Result := skipOnKey x false s

/-- `LD Vx, DT`: the value before this step's tick (`45_keypad_timers_random.md` R164). -/
def execLdVxDt (x : Reg) (s : State) : Result := .next (s.setV x s.dt)

/-- `LD Vx, K`: the fetching step tests the keys itself (`45_keypad_timers_random.md` R165). -/
def execLdVxK (x : Reg) (s : State) : Result := .next (keyWait x s)

/-- `LD DT, Vx` (`45_keypad_timers_random.md` R166). -/
def execLdDtVx (x : Reg) (s : State) : Result := .next (s.setDt (s.getV x))

/-- `LD ST, Vx` (`45_keypad_timers_random.md` R167). -/
def execLdStVx (x : Reg) (s : State) : Result := .next (s.setSt (s.getV x))

end Sys2Proof.Machine
end

