-- ==== Sys2Proof/Machine/IndexMemory.lean ====
section
/-! DEFINITION. IndexMemory.lean: the six instructions of `43_index_memory.md`. `I` is not changed by
the three that move bytes (R140). -/

namespace Sys2Proof.Machine

/-- `LD I, nnn` (`43_index_memory.md` R141). -/
def execLdINnn (nnn : Addr12) (s : State) : Result := .next (s.setI (target nnn))

/-- `ADD I, Vx`: modulo 65536, no flag (`43_index_memory.md` R142). -/
def execAddIVx (x : Reg) (s : State) : Result := .next (s.setI (s.i + s.getVWord x))

/-- `LD F, Vx`: an address only, no memory is read (`43_index_memory.md` R143). -/
def execLdFVx (x : Reg) (s : State) : Result := .next (s.setI (s.glyphAddr (s.getV x)))

/-- `LD B, Vx` (`43_index_memory.md` R144). -/
def execLdBVx (x : Reg) (s : State) : Result := storeBytes (s.addr 0) (bcdDigits (s.getV x)) s

/-- `LD [I], Vx`: `V0` to `Vx` inclusive (`43_index_memory.md` R145). -/
def execLdMemVx (x : Reg) (s : State) : Result :=
  storeBytes (s.addr 0) ((regsUpTo x).map s.getV) s

/-- `LD Vx, [I]`: `V0` to `Vx` inclusive (`43_index_memory.md` R146). -/
def execLdVxMem (x : Reg) (s : State) : Result := loadRegs (s.addr 0) (regsUpTo x) s

end Sys2Proof.Machine
end

