-- ==== Sys2Proof/Machine/Step.lean ====
section
/-! DEFINITION. Step.lean: the one operation of the engine (`40_engine_step.md` R90), and the placing
of one instruction word where the next step fetches. -/

namespace Sys2Proof.Machine

/-- `Step(keys, rnd)` of `40_engine_step.md` R90, the inputs being the state's sample (log 1): fetch,
decode, execute (R91 to R93) or the key wait (R95), then the tick (R94). -/
def step (s : State) : Host.Outcome State Fault Refusal :=
  match s.mode with
  | .running =>
    fetch s fun op t =>
      match decode op with
      | .ok i => finish (exec i t)
      | .error _ => illegal op t
  | .awaitingKey x => finish (.next (keyWait x s))

/-- A `pc` from which two bytes can be fetched: its own, or else the program start (log 5). -/
def State.fetchPc (s : State) : Word :=
  if s.pc.toNat + 1 < Config.memSize then s.pc else BitVec.ofNat 16 s.programStart

/-- The state with the table's word `w` where the next step fetches: its two bytes at `pc`, high byte
first, and the mode in which a step fetches (log 5). -/
def State.withFetchWord (s : State) (nbits w : Nat) : State :=
  ((s.setMode .running).setPc s.fetchPc).place s.fetchPc.toNat (wordBytes (tableWord nbits w))

end Sys2Proof.Machine
end

