-- ==== Sys2Proof/Safety.lean ====
section
/-! DEFINITION. Safety.lean: the terms in which claims are made: what two states have in common, which
words are illegal, which pixels a sprite covers, the invariant of the machine, and what a safe and a
finished run is. None of it is used by the machine. -/

namespace Sys2Proof.Machine

/-! ### Frames -/

/-- The parts of the state (`10_state.md` R20), the driver's samples (log 1) and the parameters
(log 13). -/
inductive Part where
  | regs | index | pc | stack | delay | sound | screen | mode | memory | inputs
  | params
deriving DecidableEq, Repr

/-- A part reads the same in `t` as in `s`; memory byte by byte, at every address. -/
def keeps (s t : State) : Part → Prop
  | .regs => ∀ r, t.getV r = s.getV r
  | .index => t.i = s.i
  | .pc => t.pc = s.pc
  | .stack => t.sp = s.sp ∧ ∀ k, t.stackAt k = s.stackAt k
  | .delay => t.dt = s.dt
  | .sound => t.st = s.st
  | .screen => ∀ row col, t.pixel row col = s.pixel row col
  | .mode => t.mode = s.mode
  | .memory => ∀ a, t.byteAt a = s.byteAt a
  | .inputs => t.inputs = s.inputs ∧ t.inputNo = s.inputNo
  | .params => t.params = s.params

/-- Every part outside `ps` reads the same in `t` as in `s`. -/
def changesOnly (ps : List Part) (s t : State) : Prop := ∀ p, p ∉ ps → keeps s t p

/-- Nothing but the general registers `rs` differs. -/
def changesOnlyRegs (rs : List Reg) (s t : State) : Prop :=
  changesOnly [.regs] s t ∧ ∀ r, r ∉ rs → t.getV r = s.getV r

/-- Every byte outside the `n` bytes from `a` on reads the same in `t` as in `s`. -/
def sameBytesOutside (a n : Nat) (s t : State) : Prop :=
  ∀ p, p < a ∨ a + n ≤ p → t.byteAt p = s.byteAt p

/-- The general registers an instruction may write (the pseudocode of `42_alu.md` to
`45_keypad_timers_random.md`; `VF` beside the destination only where `10_state.md` R22 says so). -/
def dests : Instr → List Reg
  | .ldVxKk x _ | .addVxKk x _ | .ldVxVy x _ | .orVxVy x _ | .andVxVy x _ | .xorVxVy x _
  | .rndVxKk x _ | .ldVxDt x | .ldVxK x => [x]
  | .addVxVy x _ | .subVxVy x _ | .shrVx x | .subnVxVy x _ | .shlVx x => [x, 0xF#4]
  | .drwVxVyN _ _ _ => [0xF#4]
  | .ldVxMem x => regsUpTo x
  | .sys _ | .cls | .ret | .jp _ | .call _ | .seVxKk _ _ | .sneVxKk _ _ | .seVxVy _ _ | .sneVxVy _ _
  | .ldINnn _ | .jpV0Nnn _ | .skpVx _ | .sknpVx _ | .ldDtVx _ | .ldStVx _ | .addIVx _ | .ldFVx _
  | .ldBVx _ | .ldMemVx _ => []

/-- The parts of the state an instruction may write, beyond the fetch's advance and the step's tick
(the family texts at the head of `41_control_flow.md` to `45_keypad_timers_random.md`). -/
def touches : Instr → List Part
  | .sys _ | .jp _ | .jpV0Nnn _ | .seVxKk _ _ | .sneVxKk _ _ | .seVxVy _ _ | .sneVxVy _ _
  | .skpVx _ | .sknpVx _ => [.pc]
  | .ret | .call _ => [.pc, .stack]
  | .ldVxKk _ _ | .addVxKk _ _ | .ldVxVy _ _ | .orVxVy _ _ | .andVxVy _ _ | .xorVxVy _ _
  | .addVxVy _ _ | .subVxVy _ _ | .shrVx _ | .subnVxVy _ _ | .shlVx _ | .rndVxKk _ _ | .ldVxDt _
  | .ldVxMem _ => [.regs]
  | .ldINnn _ | .addIVx _ | .ldFVx _ => [.index]
  | .ldBVx _ | .ldMemVx _ => [.memory]
  | .cls => [.screen]
  | .drwVxVyN _ _ _ => [.regs, .screen]
  | .ldDtVx _ => [.delay]
  | .ldStVx _ => [.sound]
  | .ldVxK _ => [.regs, .mode, .delay, .sound]

/-! ### Words and sprites -/

/-- The word at an address as a fetch reads it, high byte first (`20_memory.md` R55). -/
def State.wordAt (s : State) (a : Nat) : Word := s.byteAt a ++ s.byteAt (a + 1)

/-- The illegal words, exactly as `30_encoding.md` R80 lists them. -/
def illegalWord (op : Word) : Prop :=
  (op &&& 0xF000#16 = 0x8000#16 ∧
    op &&& 0x000F#16 ∈ [0x8#16, 0x9#16, 0xA#16, 0xB#16, 0xC#16, 0xD#16, 0xF#16]) ∨
  (op &&& 0xF000#16 = 0xE000#16 ∧ op &&& 0x00FF#16 ∉ [0x9E#16, 0xA1#16]) ∨
  (op &&& 0xF000#16 = 0xF000#16 ∧
    op &&& 0x00FF#16 ∉ [0x07#16, 0x0A#16, 0x15#16, 0x18#16, 0x1E#16, 0x29#16, 0x33#16, 0x55#16, 0x65#16])

/-- One of the first `n` sprite rows at `I` whose byte lies in the address space has a set bit for the
pixel, the origin being `(x0, y0)`: bit `7 - c` of row `r` goes to row `(y0 + r) mod 32`, column
`(x0 + c) mod 64` (`44_display.md` R150, R152, R153). -/
def State.covers (s : State) (x0 y0 n : Nat) (row : Fin 32) (col : Fin 64) : Prop :=
  ∃ r c, r < n ∧ c < 8 ∧ s.i.toNat + r < 4096 ∧ row.val = (y0 + r) % 32 ∧ col.val = (x0 + c) % 64 ∧
    (s.byteAt (s.i.toNat + r)).getLsbD (7 - c) = true

/-- `t` is `s` with that sprite drawn: the covered pixels flipped and no other, `VF` 1 exactly when
one of them was on, nothing else changed (`44_display.md` R152, R153). -/
def drawn (s : State) (x0 y0 n : Nat) (t : State) : Prop :=
  (∀ row col, s.covers x0 y0 n row col → t.pixel row col = !s.pixel row col) ∧
  (∀ row col, ¬ s.covers x0 y0 n row col → t.pixel row col = s.pixel row col) ∧
  ((∃ row col, s.covers x0 y0 n row col ∧ s.pixel row col = true) → t.getV 0xF#4 = 1#8) ∧
  ((¬ ∃ row col, s.covers x0 y0 n row col ∧ s.pixel row col = true) → t.getV 0xF#4 = 0#8) ∧
  changesOnly [.regs, .screen] s t ∧ ∀ r, r ≠ 0xF#4 → t.getV r = s.getV r

/-! ### Inputs -/

/-- How often a key wait ticks the timers itself, beside the tick that ends the step, under the
machine's `KEYWAIT_EXTRA_TICK` (`45_keypad_timers_random.md` R168; log 4). -/
def State.extraTicks (s : State) : Nat :=
  match s.params.keyWaitExtraTick with
  | .whenNoKey => if s.keys = 0#16 then 1 else 0
  | .always => 1
  | .never => 0

/-- The state with other samples to come. -/
def State.withInputs (s : State) (l : List Sample) (n : Nat) : State :=
  { s with inputs := l, inputNo := n }

/-- A fault with the state it leaves changed. -/
def Fault.mapLeft (g : State → State) : Fault → Fault
  | .addressOutOfRange a s => .addressOutOfRange a (g s)
  | .stackOverflow s => .stackOverflow (g s)
  | .stackUnderflow s => .stackUnderflow (g s)
  | .invalidOpcode op s => .invalidOpcode op (g s)
  | .keyIndexOutOfRange k s => .keyIndexOutOfRange k (g s)
  | .romTooLarge n => .romTooLarge n

/-- An outcome with the state it leaves changed. -/
def mapState (g : State → State) : Result → Result
  | .next s => .next (g s)
  | .fault f => .fault (f.mapLeft g)
  | .refused u => .refused u

/-! ### Invariant, safe run, finished run -/

/-- What holds of every state of a run: memory is canonical, `pc` and the return addresses stay in the
bounds of `10_state.md` R24, a waiting engine's `pc` is the address after an instruction, and the
parameters meet the constraints of `00_scope.md` R5. -/
def Inv (s : State) : Prop :=
  s.mem.wf ∧ s.pc.toNat ≤ 0x10FE ∧ (∀ k, (s.stackAt k).toNat ≤ 0x1000) ∧
  (∀ x, s.mode = .awaitingKey x → s.pc.toNat ≤ 0x1000) ∧ s.params.ok

/-- A run of `k` steps that raises no fault (`60_exceptions.md` R177: a faulted run is no completed
run). -/
def safeFor (k : Nat) (s : State) : Prop := ∃ t, Host.Core.run Sys2Proof.core k s = .next t

/-- The convention of `70_reset_and_hazards.md` R204: running, with a jump to itself at `pc`. -/
def finished (s : State) : Prop :=
  s.mode = .running ∧ s.pc.toNat + 1 < 4096 ∧ s.wordAt s.pc.toNat = 0x1000#16 ||| s.pc

end Sys2Proof.Machine
end

