-- ==== Sys2Proof/Certificates/Slice0/Obligations.lean ====
section
/-! DEFINITION. Obligations.lean: the statements for the provers. In a statement about `exec`, the state
`s` is the one the instruction runs on: its `pc` is already the instruction's address + 2
(`00_scope.md` R9, `40_engine_step.md` R91), and the tick that ends the step comes after it. -/

open Sys2Proof Sys2Proof.Machine

/-! ### Reset and boot -/

/-- `70_reset_and_hazards.md` R190, `00_scope.md` R5: after reset every piece of state has the value
given, under every choice of the parameters (for `fb` and `mode` the spec's own decision D21), and the
machine's own parameters are the spec's defaults (its D1 and D18; log 13). -/
def Obligations.ResetStateIsAsSpecified : Prop :=
  (∀ p : Config.Params, let s := State.resetWith p
    (∀ r, s.getV r = 0#8) ∧ s.i = 0#16 ∧ s.pc.toNat = p.programStart.val ∧ s.sp.val = 0 ∧
    (∀ k, s.stackAt k = 0#16) ∧ s.dt = 0#8 ∧ s.st = 0#8 ∧ (∀ row col, s.pixel row col = false) ∧
    s.mode = .running ∧ (∀ a, s.byteAt a = 0#8) ∧ s.params = p) ∧
  State.reset = State.resetWith State.reset.params ∧ State.reset.pc = 0x200#16 ∧
  State.reset.params.keyWaitExtraTick = .whenNoKey

/-- The machine's invariant holds at reset (`10_state.md` R24, R35), under every choice of the
parameters that meets the constraints of `00_scope.md` R5, the machine's own among them. -/
def Obligations.ResetMeetsInvariant : Prop :=
  (∀ p : Config.Params, p.ok → Inv (State.resetWith p)) ∧ Inv State.reset

/-- `70_reset_and_hazards.md` R194: an image of at most 3583 bytes is written from `PROGRAM_START` on and
nothing else changes; a longer one is rejected with `RomTooLarge`; for every `PROGRAM_START`. -/
def Obligations.ProgramLoadIsBounded : Prop :=
  ∀ (image : List Byte) (s : State),
    (image.length ≤ 3583 → ∃ t, loadProgram image s = .next t ∧
      (∀ k (h : k < image.length), t.byteAt (s.programStart + k) = image[k]) ∧
      sameBytesOutside s.programStart image.length s t ∧ changesOnly [.memory] s t) ∧
    (3583 < image.length → loadProgram image s = .fault (.romTooLarge image.length))

/-- `70_reset_and_hazards.md` R195: the 80 glyph bytes are written from `FONT_START` on, and where the
parameters meet the constraints of `00_scope.md` R5 the order of the two loads does not matter; for
every `FONT_START` (logs 2, 13). -/
def Obligations.FontLoadWritesGlyphs : Prop :=
  ∀ (glyphs : Vector Byte 80) (s : State),
    (∀ k (h : k < 80), (loadFont glyphs s).byteAt (s.fontStart + k) = glyphs[k]) ∧
    sameBytesOutside s.fontStart 80 s (loadFont glyphs s) ∧
    changesOnly [.memory] s (loadFont glyphs s) ∧
    (s.params.ok → ∀ image : List Byte, image.length ≤ 3583 →
      ∃ t u, loadProgram image (loadFont glyphs s) = .next t ∧ loadProgram image s = .next u ∧
        changesOnly [] t (loadFont glyphs u))

/-- `20_memory.md` R58, `70_reset_and_hazards.md` R193 to R195: after boot the font, the image and zeros
are in memory, everything else is as at reset, and the invariant holds; for every font and every
choice of the parameters that meets the constraints of `00_scope.md` R5 (log 13). -/
def Obligations.BootLaysOutMemory : Prop :=
  ∀ (image : List Byte) (glyphs : Vector Byte 80) (p : Config.Params),
    image.length ≤ 3583 → p.ok → ∃ t, boot image glyphs p = .next t ∧
      (∀ k (h : k < 80), t.byteAt (p.fontStart.val + k) = glyphs[k]) ∧
      (∀ k (h : k < image.length), t.byteAt (p.programStart.val + k) = image[k]) ∧
      (∀ a, (a < p.fontStart.val ∨ p.fontStart.val + 80 ≤ a) →
        (a < p.programStart.val ∨ p.programStart.val + image.length ≤ a) → t.byteAt a = 0#8) ∧
      changesOnly [.memory] (State.resetWith p) t ∧ Inv t

/-! ### Decode and encode -/

/-- Every well-formed instruction is read back from its encoding, operands at every value, whatever
bytes follow (`30_encoding.md` R71, R72, R79, R81). -/
def Obligations.DecodeInvertsEncode : Prop :=
  ∀ (i : Instr) (rest : List Byte), i.wf = true →
    decode (encode i) = .ok i ∧ decodeBytes (wordBytes (encode i) ++ rest) = .ok (i, rest)

/-- `30_encoding.md` R79, with R74 and R78: a word that meets a row's mask and match is that row's
instruction with the operands of R8, whatever stands in the fields the row ignores. The numbers are the
spec's, from general knowledge (D5, log 8); the non-canonical words follow its D6 and D7 (log 7). -/
def Obligations.DecodeFollowsOpcodeMap : Prop :=
  ∀ op : Word,
    let x : Reg := op.extractLsb' 8 4
    let y : Reg := op.extractLsb' 4 4
    let n : Nibble := op.extractLsb' 0 4
    let kk : Byte := op.extractLsb' 0 8
    let nnn : Addr12 := op.extractLsb' 0 12
    (op &&& 0xF000#16 = 0x0000#16 → kk ≠ 0xE0#8 → kk ≠ 0xEE#8 → decode op = .ok (.sys nnn)) ∧
    (op &&& 0xF0FF#16 = 0x00E0#16 → decode op = .ok .cls) ∧
    (op &&& 0xF0FF#16 = 0x00EE#16 → decode op = .ok .ret) ∧
    (op &&& 0xF000#16 = 0x1000#16 → decode op = .ok (.jp nnn)) ∧
    (op &&& 0xF000#16 = 0x2000#16 → decode op = .ok (.call nnn)) ∧
    (op &&& 0xF000#16 = 0x3000#16 → decode op = .ok (.seVxKk x kk)) ∧
    (op &&& 0xF000#16 = 0x4000#16 → decode op = .ok (.sneVxKk x kk)) ∧
    (op &&& 0xF000#16 = 0x5000#16 → decode op = .ok (.seVxVy x y)) ∧
    (op &&& 0xF000#16 = 0x9000#16 → decode op = .ok (.sneVxVy x y)) ∧
    (op &&& 0xF000#16 = 0x6000#16 → decode op = .ok (.ldVxKk x kk)) ∧
    (op &&& 0xF000#16 = 0x7000#16 → decode op = .ok (.addVxKk x kk)) ∧
    (op &&& 0xF00F#16 = 0x8000#16 → decode op = .ok (.ldVxVy x y)) ∧
    (op &&& 0xF00F#16 = 0x8001#16 → decode op = .ok (.orVxVy x y)) ∧
    (op &&& 0xF00F#16 = 0x8002#16 → decode op = .ok (.andVxVy x y)) ∧
    (op &&& 0xF00F#16 = 0x8003#16 → decode op = .ok (.xorVxVy x y)) ∧
    (op &&& 0xF00F#16 = 0x8004#16 → decode op = .ok (.addVxVy x y)) ∧
    (op &&& 0xF00F#16 = 0x8005#16 → decode op = .ok (.subVxVy x y)) ∧
    (op &&& 0xF00F#16 = 0x8007#16 → decode op = .ok (.subnVxVy x y)) ∧
    (op &&& 0xF00F#16 = 0x8006#16 → decode op = .ok (.shrVx x)) ∧
    (op &&& 0xF00F#16 = 0x800E#16 → decode op = .ok (.shlVx x)) ∧
    (op &&& 0xF000#16 = 0xA000#16 → decode op = .ok (.ldINnn nnn)) ∧
    (op &&& 0xF000#16 = 0xB000#16 → decode op = .ok (.jpV0Nnn nnn)) ∧
    (op &&& 0xF000#16 = 0xC000#16 → decode op = .ok (.rndVxKk x kk)) ∧
    (op &&& 0xF000#16 = 0xD000#16 → decode op = .ok (.drwVxVyN x y n)) ∧
    (op &&& 0xF0FF#16 = 0xE09E#16 → decode op = .ok (.skpVx x)) ∧
    (op &&& 0xF0FF#16 = 0xE0A1#16 → decode op = .ok (.sknpVx x)) ∧
    (op &&& 0xF0FF#16 = 0xF007#16 → decode op = .ok (.ldVxDt x)) ∧
    (op &&& 0xF0FF#16 = 0xF00A#16 → decode op = .ok (.ldVxK x)) ∧
    (op &&& 0xF0FF#16 = 0xF015#16 → decode op = .ok (.ldDtVx x)) ∧
    (op &&& 0xF0FF#16 = 0xF018#16 → decode op = .ok (.ldStVx x)) ∧
    (op &&& 0xF0FF#16 = 0xF01E#16 → decode op = .ok (.addIVx x)) ∧
    (op &&& 0xF0FF#16 = 0xF029#16 → decode op = .ok (.ldFVx x)) ∧
    (op &&& 0xF0FF#16 = 0xF033#16 → decode op = .ok (.ldBVx x)) ∧
    (op &&& 0xF0FF#16 = 0xF055#16 → decode op = .ok (.ldMemVx x)) ∧
    (op &&& 0xF0FF#16 = 0xF065#16 → decode op = .ok (.ldVxMem x))

/-- `30_encoding.md` R80, R81 (the numbers: D5, log 8): the decoder rejects exactly the illegal words,
and what it reads of any other word is a well-formed instruction. -/
def Obligations.ExactlyIllegalWordsAreRejected : Prop :=
  ∀ op : Word, (illegalWord op → ∃ e, decode op = .error e) ∧
    (¬ illegalWord op → ∃ i, decode op = .ok i ∧ i.wf = true)

/-- A few words from the spec's vectors (`95_test_vectors.md` E1 to E19). The numbers are the spec's, from
general knowledge (D5, log 8); 0x01E0 and 0x00E1 follow its own decision D6, 0x5127 its D7 (log 7). -/
def Obligations.SpecVectorWordsDecode : Prop :=
  decode 0x6A2F#16 = .ok (.ldVxKk 0xA#4 0x2F#8) ∧ decode 0x0000#16 = .ok (.sys 0x000#12) ∧
  decode 0x01E0#16 = .ok .cls ∧ decode 0x00E1#16 = .ok (.sys 0x0E1#12) ∧
  decode 0x5127#16 = .ok (.seVxVy 0x1#4 0x2#4) ∧ decode 0x812E#16 = .ok (.shlVx 0x1#4) ∧
  decode 0xE19E#16 = .ok (.skpVx 0x1#4) ∧ decode 0xE1A1#16 = .ok (.sknpVx 0x1#4) ∧
  decode 0xF155#16 = .ok (.ldMemVx 0x1#4) ∧ decode 0xDABF#16 = .ok (.drwVxVyN 0xA#4 0xB#4 0xF#4) ∧
  decode 0xB123#16 = .ok (.jpV0Nnn 0x123#12)

/-! ### The step -/

/-- `40_engine_step.md` R90, R91, R93, R94, `20_memory.md` R55: where the word at `pc` decodes, the step
is that instruction run on the state with `pc` advanced, then the tick of both timers; a fault of the
instruction is the step's, with no tick (the spec's D19). The used-up sample is the model's own
(log 1); the byte order is the spec's, from general knowledge (D4, log 8). -/
def Obligations.StepRunsTheDecodedInstruction : Prop :=
  ∀ (s : State) (i : Instr), s.mode = .running → s.pc.toNat + 1 < 4096 →
    decode (s.wordAt s.pc.toNat) = .ok i →
    (∀ t, exec i { s with pc := s.pc + 2#16 } = .next t →
      step s = .next { t with
        dt := if t.dt = 0#8 then 0#8 else t.dt - 1#8
        st := if t.st = 0#8 then 0#8 else t.st - 1#8
        inputs := t.inputs.tail
        inputNo := t.inputNo + 1 }) ∧
    ∀ f, exec i { s with pc := s.pc + 2#16 } = .fault f → step s = .fault f

/-- `40_engine_step.md` R91, `60_exceptions.md` R171: a fetch whose first or second byte lies outside
the address space faults with that byte's address and changes nothing (the spec's own decision D23). -/
def Obligations.FetchOutOfRangeFaults : Prop :=
  ∀ s : State, s.mode = .running →
    (4096 ≤ s.pc.toNat → step s = .fault (.addressOutOfRange s.pc.toNat s)) ∧
    (s.pc.toNat = 4095 → step s = .fault (.addressOutOfRange 4096 s))

/-- `60_exceptions.md` R174: an illegal word faults in decode, with `pc` advanced by 2 and nothing else
changed. -/
def Obligations.IllegalWordFaults : Prop :=
  ∀ s : State, s.mode = .running → s.pc.toNat + 1 < 4096 → illegalWord (s.wordAt s.pc.toNat) →
    step s = .fault (.invalidOpcode (s.wordAt s.pc.toNat) { s with pc := s.pc + 2#16 })

/-- `40_engine_step.md` R95, `45_keypad_timers_random.md` R168: a step that waits for a key fetches
nothing and leaves `pc`; with no key it stays waiting, with a key the least one is stored and the
engine runs again; each timer loses 1 and the extra ticks of the machine's `KEYWAIT_EXTRA_TICK` (by
default 1 with no key, 0 with one: the spec's own decision D18, log 4). -/
def Obligations.WaitingStepChecksKeys : Prop :=
  ∀ (s : State) (x : Reg), s.mode = .awaitingKey x →
    (s.keys = 0#16 → ∃ t, step s = .next t ∧ t.dt.toNat = s.dt.toNat - (s.extraTicks + 1) ∧
      t.st.toNat = s.st.toNat - (s.extraTicks + 1) ∧
      changesOnly [.delay, .sound, .inputs] s t) ∧
    (∀ k : Nibble, s.keys.getLsbD k.toNat = true → (∀ j, j < k.toNat → s.keys.getLsbD j = false) →
      ∃ t, step s = .next t ∧ (t.getV x).toNat = k.toNat ∧ t.mode = .running ∧
        t.dt.toNat = s.dt.toNat - (s.extraTicks + 1) ∧
        t.st.toNat = s.st.toNat - (s.extraTicks + 1) ∧
        changesOnly [.regs, .mode, .delay, .sound, .inputs] s t ∧
        ∀ r, r ≠ x → t.getV r = s.getV r)

/-- `45_keypad_timers_random.md` R168: the key-wait procedure under each value of
`KEYWAIT_EXTRA_TICK`, and both places that run it run it under the machine's own (logs 4, 13). -/
def Obligations.KeyWaitUnderEveryParameter : Prop :=
  (∀ (e : Config.KeyWaitExtraTick) (x : Reg) (s : State),
    (s.keys = 0#16 → (keyWaitWith e x s).mode = .awaitingKey x ∧
      (keyWaitWith e x s).dt.toNat = s.dt.toNat - (if e = .never then 0 else 1) ∧
      (keyWaitWith e x s).st.toNat = s.st.toNat - (if e = .never then 0 else 1) ∧
      changesOnly [.mode, .delay, .sound] s (keyWaitWith e x s)) ∧
    (∀ k : Nibble, s.keys.getLsbD k.toNat = true → (∀ j, j < k.toNat → s.keys.getLsbD j = false) →
      ((keyWaitWith e x s).getV x).toNat = k.toNat ∧ (keyWaitWith e x s).mode = .running ∧
      (keyWaitWith e x s).dt.toNat = s.dt.toNat - (if e = .always then 1 else 0) ∧
      (keyWaitWith e x s).st.toNat = s.st.toNat - (if e = .always then 1 else 0) ∧
      changesOnly [.regs, .mode, .delay, .sound] s (keyWaitWith e x s) ∧
      ∀ r, r ≠ x → (keyWaitWith e x s).getV r = s.getV r)) ∧
  ∀ (x : Reg) (s : State),
    exec (.ldVxK x) s = .next (keyWaitWith s.params.keyWaitExtraTick x s) ∧
    (s.mode = .awaitingKey x →
      step s = .next (keyWaitWith s.params.keyWaitExtraTick x s).endStep)

/-- `10_state.md` R27, R28, `40_engine_step.md` R94, `60_exceptions.md` R185: over a completed step a
timer falls by 1, not below 0, whatever the instruction; only `LD DT`, `LD ST` set the value it falls
from, and a key wait takes the extra ticks of the machine's `KEYWAIT_EXTRA_TICK` besides (by default 1
with no key, 0 with one: the spec's own decision D18, log 4). -/
def Obligations.TimersFallOncePerStep : Prop :=
  ∀ s t : State, step s = .next t →
    (∀ x, s.mode = .awaitingKey x →
      t.dt.toNat = s.dt.toNat - (s.extraTicks + 1) ∧
      t.st.toNat = s.st.toNat - (s.extraTicks + 1)) ∧
    (∀ i, s.mode = .running → decode (s.wordAt s.pc.toNat) = .ok i →
      (∀ x, i = .ldVxK x →
        t.dt.toNat = s.dt.toNat - (s.extraTicks + 1) ∧
        t.st.toNat = s.st.toNat - (s.extraTicks + 1)) ∧
      (∀ x, i = .ldDtVx x → t.dt.toNat = (s.getV x).toNat - 1 ∧ t.st.toNat = s.st.toNat - 1) ∧
      (∀ x, i = .ldStVx x → t.dt.toNat = s.dt.toNat - 1 ∧ t.st.toNat = (s.getV x).toNat - 1) ∧
      ((∀ x, i ≠ .ldVxK x ∧ i ≠ .ldDtVx x ∧ i ≠ .ldStVx x) →
        t.dt.toNat = s.dt.toNat - 1 ∧ t.st.toNat = s.st.toNat - 1))

/-- `60_exceptions.md` R176, R177: a faulting step was no waiting one, leaves a state in which no timer
has ticked (the spec's own decision D19), and has written at most `pc` (advanced or not), general
registers, pixels and memory. -/
def Obligations.FaultingStepKeepsTimers : Prop :=
  ∀ (s : State) (f : Fault), step s = .fault f →
    s.mode = .running ∧ ∃ u, f.left = some u ∧ (u.pc = s.pc ∨ u.pc = s.pc + 2#16) ∧
      changesOnly [.regs, .pc, .screen, .memory] s u

/-- `60_exceptions.md` R170 to R173, R175, R178, R183: an instruction faults only in the way the spec
gives it, with that information, and one that checks before it writes leaves the state as it was (the
key check is the spec's own decision D17). -/
def Obligations.EveryFaultHasItsCause : Prop :=
  ∀ (i : Instr) (s : State) (f : Fault), exec i s = .fault f →
    match f with
    | .addressOutOfRange a _ =>
      ((∃ x, i = .ldBVx x ∨ i = .ldMemVx x ∨ i = .ldVxMem x) ∨ ∃ x y n, i = .drwVxVyN x y n) ∧
        a = max s.i.toNat 4096
    | .stackOverflow u => (∃ nnn, i = .call nnn) ∧ s.sp.val = 16 ∧ u = s
    | .stackUnderflow u => i = .ret ∧ s.sp.val = 0 ∧ u = s
    | .keyIndexOutOfRange k u =>
      (∃ x, (i = .skpVx x ∨ i = .sknpVx x) ∧ k = s.getV x) ∧ 15 < k.toNat ∧ u = s
    | .invalidOpcode _ _ => False
    | .romTooLarge _ => False

/-- `40_engine_step.md` R96, `30_encoding.md` R81: every step completes or faults; no instruction is
left without a meaning. -/
def Obligations.StepCompletesOrFaults : Prop :=
  ∀ s : State, (∃ t, step s = .next t) ∨ ∃ f, step s = .fault f

/-- `10_state.md` R24, R25, R33, `20_memory.md` R50: every step keeps memory canonical, `pc` and the
return addresses in their bounds (the bounds are derived in R24; 16 bits are the spec's D8) and the
parameters within the constraints of `00_scope.md` R5. -/
def Obligations.StepKeepsInvariant : Prop :=
  ∀ s t : State, Inv s → step s = .next t → Inv t

/-- What each instruction may change, and nothing else: `10_state.md` R22, R23, R25, R29, R30 and the
heads of the five instruction files. -/
def Obligations.InstructionsChangeOnlyTheirParts : Prop :=
  ∀ (i : Instr) (s t : State), exec i s = .next t →
    changesOnly (touches i) s t ∧ ∀ r, r ∉ dests i → t.getV r = s.getV r

/-- `44_display.md` R153 (a), `10_state.md` R29: the screen changes only in a step that executes `CLS`
or `DRW`. -/
def Obligations.OnlyClsAndDrwChangeTheScreen : Prop :=
  ∀ s t : State, step s = .next t → (¬ keeps s t .screen) →
    s.mode = .running ∧ (decode (s.wordAt s.pc.toNat) = .ok .cls ∨
      ∃ x y n, decode (s.wordAt s.pc.toNat) = .ok (.drwVxVyN x y n))

/-- `20_memory.md` R50, R60: a byte of memory changes only in a step that executes `LD B, Vx` or
`LD [I], Vx`, and only within the 3 or `x + 1` bytes at `I`. -/
def Obligations.OnlyStoresChangeMemory : Prop :=
  ∀ (s t : State) (a : Nat), step s = .next t → t.byteAt a ≠ s.byteAt a →
    s.mode = .running ∧
    ((∃ x, decode (s.wordAt s.pc.toNat) = .ok (.ldBVx x) ∧ s.i.toNat ≤ a ∧ a < s.i.toNat + 3) ∨
      ∃ x, decode (s.wordAt s.pc.toNat) = .ok (.ldMemVx x) ∧ s.i.toNat ≤ a ∧
        a ≤ s.i.toNat + x.toNat)

/-- `40_engine_step.md` R93, R97, R98: `rnd` reaches an instruction's result only through `RND`, and
`keys` only through `SKP`, `SKNP` and `LD Vx, K`; the other inputs may be anything. -/
def Obligations.InputsReachOnlyTheirInstructions : Prop :=
  ∀ (i : Instr) (s : State) (l : List Sample) (n : Nat),
    ((∀ x kk, i ≠ .rndVxKk x kk) → (s.withInputs l n).keys = s.keys →
      exec i (s.withInputs l n) = mapState (fun t => t.withInputs l n) (exec i s)) ∧
    ((∀ x, i ≠ .skpVx x ∧ i ≠ .sknpVx x ∧ i ≠ .ldVxK x) → (s.withInputs l n).rnd = s.rnd →
      exec i (s.withInputs l n) = mapState (fun t => t.withInputs l n) (exec i s))

/-- `10_state.md` R28: no instruction reads `ST`, and nothing else of a step does: from two states that
differ in `ST` alone, the steps have the same outcome and leave the same state but for `ST`. -/
def Obligations.SoundTimerIsNeverRead : Prop :=
  ∀ (s : State) (b : Byte),
    mapState (fun t => t.setSt 0#8) (step (s.setSt b)) = mapState (fun t => t.setSt 0#8) (step s)

/-- `70_reset_and_hazards.md` R204: a finished machine keeps stepping, stays finished, and nothing but
the timers (which fall to 0) ever changes (the convention is the spec's own, D31). -/
def Obligations.FinishedMachineOnlyTicks : Prop :=
  ∀ s : State, finished s → ∃ t, step s = .next t ∧ finished t ∧
    t.dt.toNat = s.dt.toNat - 1 ∧ t.st.toNat = s.st.toNat - 1 ∧
    changesOnly [.delay, .sound, .inputs] s t

/-! ### Control flow (`41_control_flow.md`) -/

/-- R101, R103: `SYS nnn` and `JP nnn` set `pc` to `nnn` and change nothing else; a target whose word
does not lie in memory faults at the next fetch, not at the jump. -/
def Obligations.JumpsSetTheProgramCounter : Prop :=
  ∀ (nnn : Addr12) (s : State),
    (lowByte nnn ≠ 0xE0#8 → lowByte nnn ≠ 0xEE#8 →
      decode (formatNnn 0x0#4 nnn) = .ok (.sys nnn)) ∧
    decode (formatNnn 0x1#4 nnn) = .ok (.jp nnn) ∧
    (∃ t, exec (.sys nnn) s = .next t ∧ t.pc.toNat = nnn.toNat ∧ changesOnly [.pc] s t) ∧
    (∃ t, exec (.jp nnn) s = .next t ∧ t.pc.toNat = nnn.toNat ∧ changesOnly [.pc] s t) ∧
    (nnn = 0xFFF#12 → ∀ u : State, u.mode = .running → u.pc.toNat = nnn.toNat →
      step u = .fault (.addressOutOfRange 4096 u))

/-- R109: `JP V0, nnn` sets `pc` to `nnn + V0`, not reduced, and changes nothing else; a sum at or above
4095 faults at the next fetch (no reduction: the spec's own decision D8). -/
def Obligations.JumpWithOffsetAddsV0 : Prop :=
  ∀ (nnn : Addr12) (s : State),
    decode (formatNnn 0xB#4 nnn) = .ok (.jpV0Nnn nnn) ∧
    (∃ t, exec (.jpV0Nnn nnn) s = .next t ∧
      t.pc.toNat = nnn.toNat + (s.getV 0x0#4).toNat ∧ changesOnly [.pc] s t) ∧
    (4095 ≤ nnn.toNat + (s.getV 0x0#4).toNat → ∀ u : State, u.mode = .running →
      u.pc.toNat = nnn.toNat + (s.getV 0x0#4).toNat →
      step u = .fault (.addressOutOfRange (max u.pc.toNat 4096) u))

/-- R104, `60_exceptions.md` R172: `CALL nnn` pushes `pc` (advanced: derived in R104) and jumps; with 16
entries in use it faults and writes nothing. -/
def Obligations.CallPushesAndJumps : Prop :=
  ∀ (nnn : Addr12) (s : State),
    decode (formatNnn 0x2#4 nnn) = .ok (.call nnn) ∧
    (s.sp.val < 16 → ∃ t, exec (.call nnn) s = .next t ∧ t.pc.toNat = nnn.toNat ∧
      t.sp.val = s.sp.val + 1 ∧
      (∀ k : Fin 16, t.stackAt k = if k.val = s.sp.val then s.pc else s.stackAt k) ∧
      changesOnly [.pc, .stack] s t) ∧
    (s.sp.val = 16 → exec (.call nnn) s = .fault (.stackOverflow s))

/-- R102, `60_exceptions.md` R173: `RET` pops the top entry into `pc` and leaves the entries as they
are; with none in use it faults and writes nothing. -/
def Obligations.ReturnPopsTheTopEntry : Prop :=
  ∀ s : State,
    decode 0x00EE#16 = .ok .ret ∧
    (∀ k : Fin 16, s.sp.val = k.val + 1 → ∃ t, exec .ret s = .next t ∧ t.pc = s.stackAt k ∧
      t.sp.val = k.val ∧ (∀ j, t.stackAt j = s.stackAt j) ∧ changesOnly [.pc, .stack] s t) ∧
    (s.sp.val = 0 → exec .ret s = .fault (.stackUnderflow s))

/-- R102, R104: a `RET` that meets the stack a `CALL` left goes to the address after the `CALL`, and
the stack is as before the `CALL`, up to the unused entry. -/
def Obligations.ReturnUndoesCall : Prop :=
  ∀ (nnn : Addr12) (s t u : State), exec (.call nnn) s = .next t → keeps t u .stack →
    ∃ w, exec .ret u = .next w ∧ w.pc = s.pc ∧ w.sp = s.sp ∧
      (∀ k : Fin 16, k.val < s.sp.val → w.stackAt k = s.stackAt k) ∧ changesOnly [.pc, .stack] u w

/-- R105, R106: the skips on an immediate go 2 further exactly when the condition holds (for every
`pc`, those of R24 among them, in 16 bits) and change nothing else. -/
def Obligations.SkipsOnImmediate : Prop :=
  ∀ (x : Reg) (kk : Byte) (s : State),
    decode (formatXkk 0x3#4 x kk) = .ok (.seVxKk x kk) ∧
    decode (formatXkk 0x4#4 x kk) = .ok (.sneVxKk x kk) ∧
    (∃ t, exec (.seVxKk x kk) s = .next t ∧
      t.pc = (if s.getV x = kk then s.pc + 2#16 else s.pc) ∧ changesOnly [.pc] s t) ∧
    ∃ t, exec (.sneVxKk x kk) s = .next t ∧
      t.pc = (if s.getV x ≠ kk then s.pc + 2#16 else s.pc) ∧ changesOnly [.pc] s t

/-- R107, R108: the skips on two registers, for every low nibble of the word (that it is ignored is the
spec's own decision D7 in `30_encoding.md` R78, log 7). -/
def Obligations.SkipsOnRegisters : Prop :=
  ∀ (x y : Reg) (s : State),
    (∀ n : Nibble, decode (formatXyn 0x5#4 x y n) = .ok (.seVxVy x y) ∧
      decode (formatXyn 0x9#4 x y n) = .ok (.sneVxVy x y)) ∧
    (∃ t, exec (.seVxVy x y) s = .next t ∧
      t.pc = (if s.getV x = s.getV y then s.pc + 2#16 else s.pc) ∧ changesOnly [.pc] s t) ∧
    ∃ t, exec (.sneVxVy x y) s = .next t ∧
      t.pc = (if s.getV x ≠ s.getV y then s.pc + 2#16 else s.pc) ∧ changesOnly [.pc] s t

/-! ### Loads, arithmetic, logic (`42_alu.md`) -/

/-- R121, R123: the two plain loads write their destination only. -/
def Obligations.RegisterLoads : Prop :=
  ∀ (x y : Reg) (kk : Byte) (s : State),
    decode (formatXkk 0x6#4 x kk) = .ok (.ldVxKk x kk) ∧
    decode (formatXyn 0x8#4 x y 0x0#4) = .ok (.ldVxVy x y) ∧
    (∃ t, exec (.ldVxKk x kk) s = .next t ∧ t.getV x = kk ∧ changesOnlyRegs [x] s t) ∧
    ∃ t, exec (.ldVxVy x y) s = .next t ∧ t.getV x = s.getV y ∧ changesOnlyRegs [x] s t

/-- R122: `ADD Vx, kk` adds modulo 256 and writes no flag. -/
def Obligations.AddImmediateWrapsWithoutFlag : Prop :=
  ∀ (x : Reg) (kk : Byte) (s : State),
    decode (formatXkk 0x7#4 x kk) = .ok (.addVxKk x kk) ∧
    ∃ t, exec (.addVxKk x kk) s = .next t ∧
      (t.getV x).toNat = ((s.getV x).toNat + kk.toNat) % 256 ∧ changesOnlyRegs [x] s t

/-- R124, R125, R126: the bitwise operations combine bit by bit and write no flag (derived in R124, D33). -/
def Obligations.BitwiseOperationsWriteNoFlag : Prop :=
  ∀ (x y : Reg) (s : State),
    decode (formatXyn 0x8#4 x y 0x1#4) = .ok (.orVxVy x y) ∧
    decode (formatXyn 0x8#4 x y 0x2#4) = .ok (.andVxVy x y) ∧
    decode (formatXyn 0x8#4 x y 0x3#4) = .ok (.xorVxVy x y) ∧
    (∃ t, exec (.orVxVy x y) s = .next t ∧ changesOnlyRegs [x] s t ∧
      ∀ k, (t.getV x).getLsbD k = ((s.getV x).getLsbD k || (s.getV y).getLsbD k)) ∧
    (∃ t, exec (.andVxVy x y) s = .next t ∧ changesOnlyRegs [x] s t ∧
      ∀ k, (t.getV x).getLsbD k = ((s.getV x).getLsbD k && (s.getV y).getLsbD k)) ∧
    ∃ t, exec (.xorVxVy x y) s = .next t ∧ changesOnlyRegs [x] s t ∧
      ∀ k, (t.getV x).getLsbD k = ((s.getV x).getLsbD k ^^ (s.getV y).getLsbD k)

/-- R120, R127: `ADD Vx, Vy` writes the sum modulo 256, then the carry to `VF`, both from the old
values; with `x = 15` the carry stands. -/
def Obligations.AddWritesSumThenCarry : Prop :=
  ∀ (x y : Reg) (s : State),
    decode (formatXyn 0x8#4 x y 0x4#4) = .ok (.addVxVy x y) ∧
    ∃ t, exec (.addVxVy x y) s = .next t ∧
      (x ≠ 0xF#4 → (t.getV x).toNat = ((s.getV x).toNat + (s.getV y).toNat) % 256) ∧
      (t.getV 0xF#4).toNat = (if 255 < (s.getV x).toNat + (s.getV y).toNat then 1 else 0) ∧
      changesOnlyRegs [x, 0xF#4] s t

/-- R120, R128, R130: `SUB` and `SUBN` write to `VF` whether the minuend is strictly greater, then the
difference modulo 256, both from the old values; with `x = 15` the difference stands (the spec's own
decision D13, log 6). -/
def Obligations.SubtractionsWriteFlagThenDifference : Prop :=
  ∀ (x y : Reg) (s : State),
    decode (formatXyn 0x8#4 x y 0x5#4) = .ok (.subVxVy x y) ∧
    decode (formatXyn 0x8#4 x y 0x7#4) = .ok (.subnVxVy x y) ∧
    (∃ t, exec (.subVxVy x y) s = .next t ∧
      (t.getV x).toNat = ((s.getV x).toNat + 256 - (s.getV y).toNat) % 256 ∧
      (x ≠ 0xF#4 → (t.getV 0xF#4).toNat = if (s.getV y).toNat < (s.getV x).toNat then 1 else 0) ∧
      changesOnlyRegs [x, 0xF#4] s t) ∧
    ∃ t, exec (.subnVxVy x y) s = .next t ∧
      (t.getV x).toNat = ((s.getV y).toNat + 256 - (s.getV x).toNat) % 256 ∧
      (x ≠ 0xF#4 → (t.getV 0xF#4).toNat = if (s.getV x).toNat < (s.getV y).toNat then 1 else 0) ∧
      changesOnlyRegs [x, 0xF#4] s t

/-- R120, R129, R131: the shifts write the bit shifted out to `VF`, then `Vx` halved or doubled modulo
256, whatever the word's `y` field; with `x = 15` the shifted value stands (the spec's own decision D13,
log 6). -/
def Obligations.ShiftsWriteBitThenResult : Prop :=
  ∀ (x : Reg) (s : State),
    (∀ y : Nibble, decode (formatXyn 0x8#4 x y 0x6#4) = .ok (.shrVx x) ∧
      decode (formatXyn 0x8#4 x y 0xE#4) = .ok (.shlVx x)) ∧
    (∃ t, exec (.shrVx x) s = .next t ∧ (t.getV x).toNat = (s.getV x).toNat / 2 ∧
      (x ≠ 0xF#4 → (t.getV 0xF#4).toNat = (s.getV x).toNat % 2) ∧
      changesOnlyRegs [x, 0xF#4] s t) ∧
    ∃ t, exec (.shlVx x) s = .next t ∧ (t.getV x).toNat = (s.getV x).toNat * 2 % 256 ∧
      (x ≠ 0xF#4 → (t.getV 0xF#4).toNat = (s.getV x).toNat / 128) ∧
      changesOnlyRegs [x, 0xF#4] s t

/-! ### Index register and memory (`43_index_memory.md`) -/

/-- R141, R142: `LD I, nnn` sets `I`; `ADD I, Vx` adds modulo 65536 (the spec's own
decision D9) and writes no flag. -/
def Obligations.IndexLoadAndAdd : Prop :=
  ∀ (nnn : Addr12) (x : Reg) (s : State),
    decode (formatNnn 0xA#4 nnn) = .ok (.ldINnn nnn) ∧
    decode (formatXkk 0xF#4 x 0x1E#8) = .ok (.addIVx x) ∧
    (∃ t, exec (.ldINnn nnn) s = .next t ∧ t.i.toNat = nnn.toNat ∧ changesOnly [.index] s t) ∧
    ∃ t, exec (.addIVx x) s = .next t ∧ t.i.toNat = (s.i.toNat + (s.getV x).toNat) % 65536 ∧
      changesOnly [.index] s t

/-- R143: `LD F, Vx` sets `I` to `FONT_START + 5 * Vx` on the whole byte; for every value of
`FONT_START` (log 2). That no bit of `Vx` is masked is the spec's own decision D16. -/
def Obligations.FontAddressIsFiveTimesTheDigit : Prop :=
  ∀ (x : Reg) (s : State),
    decode (formatXkk 0xF#4 x 0x29#8) = .ok (.ldFVx x) ∧
    ∃ t, exec (.ldFVx x) s = .next t ∧ t.i.toNat = s.fontStart + 5 * (s.getV x).toNat ∧
      changesOnly [.index] s t

/-- R140, R144: `LD B, Vx` stores the three decimal digits at `I`, `I + 1`, `I + 2`; where a digit's
address lies outside the address space it faults there, the digits before it stored. That `I` stays is
the spec's own decision D15, the order of the bytes its D34. -/
def Obligations.BcdStoresThreeDigits : Prop :=
  ∀ (x : Reg) (s : State),
    let digit : Nat → Nat := fun k =>
      if k = 0 then (s.getV x).toNat / 100
      else if k = 1 then (s.getV x).toNat / 10 % 10 else (s.getV x).toNat % 10
    decode (formatXkk 0xF#4 x 0x33#8) = .ok (.ldBVx x) ∧
    (s.i.toNat + 2 < 4096 → ∃ t, exec (.ldBVx x) s = .next t ∧
      (∀ k, k < 3 → (t.byteAt (s.i.toNat + k)).toNat = digit k) ∧
      sameBytesOutside s.i.toNat 3 s t ∧ changesOnly [.memory] s t) ∧
    (4096 ≤ s.i.toNat + 2 → ∃ t,
      exec (.ldBVx x) s = .fault (.addressOutOfRange (max s.i.toNat 4096) t) ∧
      (∀ k, k < 3 → s.i.toNat + k < 4096 → (t.byteAt (s.i.toNat + k)).toNat = digit k) ∧
      (∀ a, a < s.i.toNat ∨ 4096 ≤ a → t.byteAt a = s.byteAt a) ∧ changesOnly [.memory] s t)

/-- R140, R145: `LD [I], Vx` stores `V0` to `Vx` from `I` up; where an address lies outside the address
space it faults there, the bytes before it stored. That `I` stays is the spec's own decision D15, the
order of the bytes its D34. -/
def Obligations.StoreRegistersWritesConsecutiveBytes : Prop :=
  ∀ (x : Reg) (s : State),
    decode (formatXkk 0xF#4 x 0x55#8) = .ok (.ldMemVx x) ∧
    (s.i.toNat + x.toNat < 4096 → ∃ t, exec (.ldMemVx x) s = .next t ∧
      (∀ k : Reg, k.toNat ≤ x.toNat → t.byteAt (s.i.toNat + k.toNat) = s.getV k) ∧
      sameBytesOutside s.i.toNat (x.toNat + 1) s t ∧ changesOnly [.memory] s t) ∧
    (4096 ≤ s.i.toNat + x.toNat → ∃ t,
      exec (.ldMemVx x) s = .fault (.addressOutOfRange (max s.i.toNat 4096) t) ∧
      (∀ k : Reg, k.toNat ≤ x.toNat → s.i.toNat + k.toNat < 4096 →
        t.byteAt (s.i.toNat + k.toNat) = s.getV k) ∧
      (∀ a, a < s.i.toNat ∨ 4096 ≤ a → t.byteAt a = s.byteAt a) ∧ changesOnly [.memory] s t)

/-- R140, R146: `LD Vx, [I]` loads `V0` to `Vx` from `I` up; where an address lies outside the address
space it faults there, the registers before it loaded and the others as before. That `I` stays is the
spec's own decision D15, the order of the bytes its D34. -/
def Obligations.LoadRegistersReadsConsecutiveBytes : Prop :=
  ∀ (x : Reg) (s : State),
    decode (formatXkk 0xF#4 x 0x65#8) = .ok (.ldVxMem x) ∧
    (s.i.toNat + x.toNat < 4096 → ∃ t, exec (.ldVxMem x) s = .next t ∧
      (∀ k : Reg, t.getV k =
        if k.toNat ≤ x.toNat then s.byteAt (s.i.toNat + k.toNat) else s.getV k) ∧
      changesOnly [.regs] s t) ∧
    (4096 ≤ s.i.toNat + x.toNat → ∃ t,
      exec (.ldVxMem x) s = .fault (.addressOutOfRange (max s.i.toNat 4096) t) ∧
      (∀ k : Reg, t.getV k =
        if k.toNat ≤ x.toNat ∧ s.i.toNat + k.toNat < 4096 then s.byteAt (s.i.toNat + k.toNat)
        else s.getV k) ∧
      changesOnly [.regs] s t)

/-- R146, the document's round trip: loading `V0` to `Vx` back from where `LD [I], Vx` stored them, with
`I` and memory as it left them, gives the original values. -/
def Obligations.StoreThenLoadRestoresRegisters : Prop :=
  ∀ (x : Reg) (s t u : State), exec (.ldMemVx x) s = .next t → keeps t u .index →
    keeps t u .memory → ∃ w, exec (.ldVxMem x) u = .next w ∧
      (∀ k : Reg, k.toNat ≤ x.toNat → w.getV k = s.getV k) ∧ changesOnly [.regs] u w

/-- `20_memory.md` R62: a fetch sees the bytes an earlier `LD [I], Vx` stored; self-modifying code needs
no barrier. -/
def Obligations.FetchSeesStoredBytes : Prop :=
  ∀ (x k : Reg) (i : Instr) (s t u : State), k.toNat + 1 ≤ x.toNat →
    exec (.ldMemVx x) s = .next t → keeps t u .memory → u.mode = .running →
    u.pc.toNat = s.i.toNat + k.toNat → decode (s.getV k ++ s.getV (k + 1#4)) = .ok i →
    step u = finish (exec i { u with pc := u.pc + 2#16 })

/-! ### Display (`44_display.md`) -/

/-- R151: `CLS` turns every pixel off and changes nothing else; in particular not `VF`. -/
def Obligations.ClearTurnsEveryPixelOff : Prop :=
  ∀ s : State, decode 0x00E0#16 = .ok .cls ∧
    ∃ t, exec .cls s = .next t ∧ (∀ row col, t.pixel row col = false) ∧ changesOnly [.screen] s t

/-- R150, R152, R153 (b): `DRW` flips exactly the pixels under the sprite's set bits, wrapped pixel by
pixel from the old `Vx`, `Vy`, and sets `VF` to whether one of them was on; where a row's address lies
outside the address space it faults there, the rows before it drawn. Bit 7 leftmost is the spec's, from
general knowledge (log 8); the origin from the old `VF` its own decision D14 (log 6). -/
def Obligations.DrawXorsTheSprite : Prop :=
  ∀ (x y : Reg) (n : Nibble) (s : State),
    decode (formatXyn 0xD#4 x y n) = .ok (.drwVxVyN x y n) ∧
    (n = 0#4 ∨ s.i.toNat + n.toNat ≤ 4096 → ∃ t, exec (.drwVxVyN x y n) s = .next t ∧
      drawn s ((s.getV x).toNat % 64) ((s.getV y).toNat % 32) n.toNat t) ∧
    (n ≠ 0#4 → 4096 < s.i.toNat + n.toNat → ∃ t,
      exec (.drwVxVyN x y n) s = .fault (.addressOutOfRange (max s.i.toNat 4096) t) ∧
      drawn s ((s.getV x).toNat % 64) ((s.getV y).toNat % 32) n.toNat t)

/-- R152: a sprite drawn twice at the same place leaves the screen as it was, and the second draw
reports a collision exactly when the first turned some pixel on (log 10). -/
def Obligations.DrawingTwiceRestoresTheScreen : Prop :=
  ∀ (x y : Reg) (n : Nibble) (s t : State), exec (.drwVxVyN x y n) s = .next t →
    (t.getV x).toNat % 64 = (s.getV x).toNat % 64 →
    (t.getV y).toNat % 32 = (s.getV y).toNat % 32 →
    ∃ u, exec (.drwVxVyN x y n) t = .next u ∧ keeps s u .screen ∧
      ((∃ row col, s.pixel row col = false ∧ t.pixel row col = true) → u.getV 0xF#4 = 1#8) ∧
      ((¬ ∃ row col, s.pixel row col = false ∧ t.pixel row col = true) → u.getV 0xF#4 = 0#8)

/-! ### Random, keypad, timers (`45_keypad_timers_random.md`) -/

/-- R161: `RND Vx, kk` stores `rnd AND kk`; for every value of `rnd`. -/
def Obligations.RandomByteIsMasked : Prop :=
  ∀ (x : Reg) (kk : Byte) (s : State),
    decode (formatXkk 0xC#4 x kk) = .ok (.rndVxKk x kk) ∧
    ∃ t, exec (.rndVxKk x kk) s = .next t ∧ changesOnlyRegs [x] s t ∧
      ∀ k, (t.getV x).getLsbD k = (s.rnd.getLsbD k && kk.getLsbD k)

/-- R162, R163, `60_exceptions.md` R175: `SKP` and `SKNP` skip on key `V[x]`; a value above 15 faults and
writes nothing (the spec's own decision D17). -/
def Obligations.KeySkipsReadTheSelectedKey : Prop :=
  ∀ (x : Reg) (s : State),
    decode (formatXkk 0xE#4 x 0x9E#8) = .ok (.skpVx x) ∧
    decode (formatXkk 0xE#4 x 0xA1#8) = .ok (.sknpVx x) ∧
    ((s.getV x).toNat ≤ 15 →
      (∃ t, exec (.skpVx x) s = .next t ∧ changesOnly [.pc] s t ∧
        t.pc = if s.keys.getLsbD (s.getV x).toNat = true then s.pc + 2#16 else s.pc) ∧
      ∃ t, exec (.sknpVx x) s = .next t ∧ changesOnly [.pc] s t ∧
        t.pc = if s.keys.getLsbD (s.getV x).toNat = false then s.pc + 2#16 else s.pc) ∧
    (15 < (s.getV x).toNat →
      exec (.skpVx x) s = .fault (.keyIndexOutOfRange (s.getV x) s) ∧
      exec (.sknpVx x) s = .fault (.keyIndexOutOfRange (s.getV x) s))

/-- R164, R166, R167: `LD Vx, DT` reads the delay timer; `LD DT, Vx` and `LD ST, Vx` write a timer; none
changes anything else; the tick that ends the step comes after (derived in R166). -/
def Obligations.TimerTransfers : Prop :=
  ∀ (x : Reg) (s : State),
    decode (formatXkk 0xF#4 x 0x07#8) = .ok (.ldVxDt x) ∧
    decode (formatXkk 0xF#4 x 0x15#8) = .ok (.ldDtVx x) ∧
    decode (formatXkk 0xF#4 x 0x18#8) = .ok (.ldStVx x) ∧
    (∃ t, exec (.ldVxDt x) s = .next t ∧ t.getV x = s.dt ∧ changesOnlyRegs [x] s t ∧
      t.endStep.dt.toNat = s.dt.toNat - 1) ∧
    (∃ t, exec (.ldDtVx x) s = .next t ∧ t.dt = s.getV x ∧ changesOnly [.delay] s t ∧
      t.endStep.dt.toNat = (s.getV x).toNat - 1) ∧
    ∃ t, exec (.ldStVx x) s = .next t ∧ t.st = s.getV x ∧ changesOnly [.sound] s t ∧
      t.endStep.st.toNat = (s.getV x).toNat - 1

/-- R165, R168: `LD Vx, K` tests the keys in its own step: with none it waits, with a key the least one is
stored and the engine goes on running; each timer loses the extra ticks of the machine's
`KEYWAIT_EXTRA_TICK` (by default 1 with no key, 0 with one: the spec's own decision D18, log 4). -/
def Obligations.KeyLoadStoresLeastKeyOrWaits : Prop :=
  ∀ (x : Reg) (s : State),
    decode (formatXkk 0xF#4 x 0x0A#8) = .ok (.ldVxK x) ∧
    (s.keys = 0#16 → ∃ t, exec (.ldVxK x) s = .next t ∧ t.mode = .awaitingKey x ∧
      t.dt.toNat = s.dt.toNat - s.extraTicks ∧ t.st.toNat = s.st.toNat - s.extraTicks ∧
      changesOnly [.mode, .delay, .sound] s t) ∧
    (∀ k : Nibble, s.keys.getLsbD k.toNat = true → (∀ j, j < k.toNat → s.keys.getLsbD j = false) →
      ∃ t, exec (.ldVxK x) s = .next t ∧ (t.getV x).toNat = k.toNat ∧ t.mode = .running ∧
        t.dt.toNat = s.dt.toNat - s.extraTicks ∧ t.st.toNat = s.st.toNat - s.extraTicks ∧
        changesOnly [.regs, .mode, .delay, .sound] s t ∧ ∀ r, r ≠ x → t.getV r = s.getV r)
end

