-- ==== Sys2Proof/Laws/Decode.lean ====
section
/-! SUPPORT. Decode.lean: the bits and the fields of a word in each format (`30_encoding.md` R71), so
that no later proof unfolds a field or a format. -/

namespace Sys2Proof

/-! ### The bits of a word in each format -/

theorem getLsbD_formatNnn (c : Nibble) (nnn : Addr12) (k : Nat) :
    (formatNnn c nnn).getLsbD k = if k < 12 then nnn.getLsbD k else c.getLsbD (k - 12) :=
  BitVec.getLsbD_append

theorem getLsbD_formatXkk (c x : Nibble) (kk : Byte) (k : Nat) :
    (formatXkk c x kk).getLsbD k =
      if k < 8 then kk.getLsbD k
      else if k < 12 then x.getLsbD (k - 8) else c.getLsbD (k - 12) := by
  have h : (formatXkk c x kk).getLsbD k =
      if k < 8 then kk.getLsbD k else (c ++ x).getLsbD (k - 8) := BitVec.getLsbD_append
  have e1 : k - 8 < 4 ↔ k < 12 := by omega
  have e2 : k - 8 - 4 = k - 12 := by omega
  simp only [h, BitVec.getLsbD_append, e1, e2]

theorem getLsbD_formatXyn (c x y n : Nibble) (k : Nat) :
    (formatXyn c x y n).getLsbD k =
      if k < 4 then n.getLsbD k
      else if k < 8 then y.getLsbD (k - 4)
      else if k < 12 then x.getLsbD (k - 8) else c.getLsbD (k - 12) := by
  have h : (formatXyn c x y n).getLsbD k =
      if k < 4 then n.getLsbD k else (c ++ x ++ y).getLsbD (k - 4) := BitVec.getLsbD_append
  have h' : (c ++ x ++ y).getLsbD (k - 4) =
      if k - 4 < 4 then y.getLsbD (k - 4) else (c ++ x).getLsbD (k - 4 - 4) :=
    BitVec.getLsbD_append
  have e1 : k - 4 < 4 ↔ k < 8 := by omega
  have e3 : k - 4 - 4 = k - 8 := by omega
  have e4 : k - 8 - 4 = k - 12 := by omega
  simp only [h, h', BitVec.getLsbD_append, e1, e3, e4]
  by_cases hk : k < 4
  · simp only [if_pos hk]
  · have e5 : k - 8 < 4 ↔ k < 12 := by omega
    simp only [e5]

/-! ### The fields of a word in each format -/

@[simp] theorem fieldPrimary_formatNnn (c : Nibble) (nnn : Addr12) :
    fieldPrimary (formatNnn c nnn) = c := by
  refine BitVec.eq_of_getLsbD_eq fun k hk => ?_
  simp only [fieldPrimary, BitVec.getLsbD_extractLsb', getLsbD_formatNnn, hk, decide_true, Bool.true_and]
  rw [if_neg (by omega), Nat.add_sub_cancel_left]

@[simp] theorem fieldNnn_formatNnn (c : Nibble) (nnn : Addr12) :
    fieldNnn (formatNnn c nnn) = nnn := by
  refine BitVec.eq_of_getLsbD_eq fun k hk => ?_
  simp only [fieldNnn, BitVec.getLsbD_extractLsb', getLsbD_formatNnn, hk, decide_true, Bool.true_and]
  rw [if_pos (by omega), Nat.zero_add]

@[simp] theorem fieldKk_formatNnn (c : Nibble) (nnn : Addr12) :
    fieldKk (formatNnn c nnn) = nnn.extractLsb' 0 8 := by
  refine BitVec.eq_of_getLsbD_eq fun k hk => ?_
  simp only [fieldKk, BitVec.getLsbD_extractLsb', getLsbD_formatNnn, hk, decide_true, Bool.true_and]
  rw [if_pos (by omega)]

@[simp] theorem fieldPrimary_formatXkk (c x : Nibble) (kk : Byte) :
    fieldPrimary (formatXkk c x kk) = c := by
  refine BitVec.eq_of_getLsbD_eq fun k hk => ?_
  simp only [fieldPrimary, BitVec.getLsbD_extractLsb', getLsbD_formatXkk, hk, decide_true, Bool.true_and]
  rw [if_neg (by omega), if_neg (by omega), Nat.add_sub_cancel_left]

@[simp] theorem fieldX_formatXkk (c x : Nibble) (kk : Byte) :
    fieldX (formatXkk c x kk) = x := by
  refine BitVec.eq_of_getLsbD_eq fun k hk => ?_
  simp only [fieldX, BitVec.getLsbD_extractLsb', getLsbD_formatXkk, hk, decide_true, Bool.true_and]
  rw [if_neg (by omega), if_pos (by omega), Nat.add_sub_cancel_left]

@[simp] theorem fieldKk_formatXkk (c x : Nibble) (kk : Byte) :
    fieldKk (formatXkk c x kk) = kk := by
  refine BitVec.eq_of_getLsbD_eq fun k hk => ?_
  simp only [fieldKk, BitVec.getLsbD_extractLsb', getLsbD_formatXkk, hk, decide_true, Bool.true_and]
  rw [if_pos (by omega), Nat.zero_add]

@[simp] theorem fieldPrimary_formatXyn (c x y n : Nibble) :
    fieldPrimary (formatXyn c x y n) = c := by
  refine BitVec.eq_of_getLsbD_eq fun k hk => ?_
  simp only [fieldPrimary, BitVec.getLsbD_extractLsb', getLsbD_formatXyn, hk, decide_true, Bool.true_and]
  rw [if_neg (by omega), if_neg (by omega), if_neg (by omega), Nat.add_sub_cancel_left]

@[simp] theorem fieldX_formatXyn (c x y n : Nibble) :
    fieldX (formatXyn c x y n) = x := by
  refine BitVec.eq_of_getLsbD_eq fun k hk => ?_
  simp only [fieldX, BitVec.getLsbD_extractLsb', getLsbD_formatXyn, hk, decide_true, Bool.true_and]
  rw [if_neg (by omega), if_neg (by omega), if_pos (by omega), Nat.add_sub_cancel_left]

@[simp] theorem fieldY_formatXyn (c x y n : Nibble) :
    fieldY (formatXyn c x y n) = y := by
  refine BitVec.eq_of_getLsbD_eq fun k hk => ?_
  simp only [fieldY, BitVec.getLsbD_extractLsb', getLsbD_formatXyn, hk, decide_true, Bool.true_and]
  rw [if_neg (by omega), if_pos (by omega), Nat.add_sub_cancel_left]

@[simp] theorem fieldN_formatXyn (c x y n : Nibble) :
    fieldN (formatXyn c x y n) = n := by
  refine BitVec.eq_of_getLsbD_eq fun k hk => ?_
  simp only [fieldN, BitVec.getLsbD_extractLsb', getLsbD_formatXyn, hk, decide_true, Bool.true_and]
  rw [if_pos (by omega), Nat.zero_add]

/-! ### The word the fetch forms -/

/-- The two bytes of a word, put together as the fetch does, are the word. -/
@[simp] theorem wordBytes_append (op : Word) : op.extractLsb' 8 8 ++ op.extractLsb' 0 8 = op := by
  refine BitVec.eq_of_getLsbD_eq fun k hk => ?_
  have h : (op.extractLsb' 8 8 ++ op.extractLsb' 0 8).getLsbD k =
      if k < 8 then (op.extractLsb' 0 8).getLsbD k else (op.extractLsb' 8 8).getLsbD (k - 8) :=
    BitVec.getLsbD_append
  rw [h]
  by_cases h8 : k < 8
  · simp [h8]
  · have h1 : k - 8 < 8 := by omega
    have h2 : 8 + (k - 8) = k := by omega
    simp [h8, h1, h2]

/-! ### Masked words (the columns `mask` and `match` of R79) and fields -/

/-- Mask 0xF000 leaves the primary code. -/
theorem and_primary_iff (op : Word) (d : Nibble) : op &&& 0xF000#16 = d.setWidth 16 <<< 12 ↔ fieldPrimary op = d := by
  constructor
  · intro h
    refine BitVec.eq_of_getLsbD_eq fun k hk => ?_
    have := congrArg (fun w => w.getLsbD (12 + k)) h
    simp only [fieldPrimary, BitVec.getLsbD_extractLsb', hk, decide_true, Bool.true_and]
    interval_cases k <;> simpa using this
  · rintro rfl
    refine BitVec.eq_of_getLsbD_eq fun k hk => ?_
    simp only [fieldPrimary, BitVec.getLsbD_setWidth, BitVec.getLsbD_and, BitVec.getLsbD_extractLsb', BitVec.getLsbD_shiftLeft]
    interval_cases k <;> simp

/-- Mask 0x000F leaves the low nibble. -/
theorem and_low_nibble_iff (op : Word) (d : Nibble) : op &&& 0x000F#16 = d.setWidth 16 ↔ fieldN op = d := by
  constructor
  · intro h
    refine BitVec.eq_of_getLsbD_eq fun k hk => ?_
    have := congrArg (fun w => w.getLsbD (k)) h
    simp only [fieldN, BitVec.getLsbD_extractLsb', hk, decide_true, Bool.true_and]
    interval_cases k <;> simpa using this
  · rintro rfl
    refine BitVec.eq_of_getLsbD_eq fun k hk => ?_
    simp only [fieldN, BitVec.getLsbD_setWidth, BitVec.getLsbD_and, BitVec.getLsbD_extractLsb']
    interval_cases k <;> simp

/-- Mask 0x00FF leaves the low byte. -/
theorem and_low_byte_iff (op : Word) (d : Byte) : op &&& 0x00FF#16 = d.setWidth 16 ↔ fieldKk op = d := by
  constructor
  · intro h
    refine BitVec.eq_of_getLsbD_eq fun k hk => ?_
    have := congrArg (fun w => w.getLsbD (k)) h
    simp only [fieldKk, BitVec.getLsbD_extractLsb', hk, decide_true, Bool.true_and]
    interval_cases k <;> simpa using this
  · rintro rfl
    refine BitVec.eq_of_getLsbD_eq fun k hk => ?_
    simp only [fieldKk, BitVec.getLsbD_setWidth, BitVec.getLsbD_and, BitVec.getLsbD_extractLsb']
    interval_cases k <;> simp

/-- A row of mask 0xF00F fixes the primary code and the low nibble. -/
theorem fields_of_and_F00F {op : Word} (c d : Nibble)
    (h : op &&& 0xF00F#16 = (c.setWidth 16 <<< 12) ||| d.setWidth 16) :
    fieldPrimary op = c ∧ fieldN op = d := by
  constructor
  all_goals refine BitVec.eq_of_getLsbD_eq fun k hk => ?_
  · have := congrArg (fun w => w.getLsbD (12 + k)) h
    simp only [fieldPrimary, BitVec.getLsbD_extractLsb', hk, decide_true, Bool.true_and]
    interval_cases k <;> simpa using this
  · have := congrArg (fun w => w.getLsbD k) h
    simp only [fieldN, BitVec.getLsbD_extractLsb', hk, decide_true, Bool.true_and]
    interval_cases k <;> simpa using this

/-- A row of mask 0xF0FF fixes the primary code and the low byte. -/
theorem fields_of_and_F0FF {op : Word} (c : Nibble) (d : Byte)
    (h : op &&& 0xF0FF#16 = (c.setWidth 16 <<< 12) ||| d.setWidth 16) :
    fieldPrimary op = c ∧ fieldKk op = d := by
  constructor
  all_goals refine BitVec.eq_of_getLsbD_eq fun k hk => ?_
  · have := congrArg (fun w => w.getLsbD (12 + k)) h
    simp only [fieldPrimary, BitVec.getLsbD_extractLsb', hk, decide_true, Bool.true_and]
    interval_cases k <;> simpa using this
  · have := congrArg (fun w => w.getLsbD k) h
    simp only [fieldKk, BitVec.getLsbD_extractLsb', hk, decide_true, Bool.true_and]
    interval_cases k <;> simpa using this

end Sys2Proof
end

