-- ==== Sys2Proof/Laws/Memory.lean ====
section
/-! SUPPORT. Memory.lean: the laws of memory as a list. What is read after a write needs no canonical
form; every operation keeps the canonical form, and reset's memory has it. -/

namespace Sys2Proof.Machine

/-! ### A read after a write -/

@[simp] theorem Memory.load_nil (a : Nat) : Memory.load [] a = 0#8 := rfl

theorem Memory.load_erase (m : Memory) (a p : Nat) :
    Memory.load (Memory.erase m a) p = if p = a then 0#8 else Memory.load m p := by
  unfold Memory.erase
  induction m with
  | nil => simp
  | cons c m ih =>
    obtain ⟨k, b⟩ := c
    simp only [List.filter_cons, bne_iff_ne, ne_eq]
    by_cases hk : k = a
    · simp only [hk, not_true_eq_false, ↓reduceIte, ih, Memory.load]
      by_cases hp : p = a
      · simp [hp]
      · simp [hp, Ne.symm hp]
    · simp only [hk, not_false_eq_true, ↓reduceIte, Memory.load, ih]
      by_cases hkp : k = p
      · subst hkp; simp [hk]
      · simp [hkp]

theorem Memory.load_insert (m : Memory) (a p : Nat) (b : Byte) :
    Memory.load (Memory.insert m a b) p = if p = a then b else Memory.load m p := by
  induction m with
  | nil => simp [Memory.insert, Memory.load, eq_comm]
  | cons c m ih =>
    obtain ⟨k, d⟩ := c
    simp only [Memory.insert]
    split
    · simp only [Memory.load, ih]
      by_cases hkp : k = p
      · have : p ≠ a := by omega
        simp [hkp, this]
      · simp [hkp]
    · split
      · rename_i h
        subst h
        by_cases hp : p = k
        · simp [Memory.load, hp]
        · simp [Memory.load, hp, Ne.symm hp]
      · by_cases hp : p = a
        · simp [Memory.load, hp]
        · simp [Memory.load, hp, Ne.symm hp]

/-- A read after a write: the byte written at its address, every other address as before. -/
theorem Memory.load_store (m : Memory) (a p : Nat) (b : Byte) :
    Memory.load (Memory.store m a b) p = if p = a then b else Memory.load m p := by
  unfold Memory.store
  split
  · rename_i h; rw [h]; exact Memory.load_erase m a p
  · exact Memory.load_insert m a p b

/-! ### The canonical form -/

theorem Memory.wf_nil : Memory.wf [] := by decide

theorem Memory.erase_wf {m : Memory} (h : Memory.wf m) (a : Nat) : Memory.wf (Memory.erase m a) :=
  ⟨h.1.sublist List.filter_sublist, fun c hc => h.2 c (List.mem_of_mem_filter hc)⟩

theorem Memory.mem_insert {m : Memory} {a : Nat} {b : Byte} {c : Host.Cell}
    (h : c ∈ Memory.insert m a b) : c = (a, b) ∨ c ∈ m := by
  induction m with
  | nil => simpa [Memory.insert] using h
  | cons d m ih =>
    simp only [Memory.insert] at h
    split at h
    · rcases List.mem_cons.mp h with h | h
      · exact .inr (h ▸ List.mem_cons_self)
      · exact (ih h).imp_right (List.mem_cons_of_mem d)
    · split at h
      · exact (List.mem_cons.mp h).imp_right (List.mem_cons_of_mem d)
      · exact List.mem_cons.mp h

theorem Memory.insert_wf {m : Memory} (h : Memory.wf m) {a : Nat} {b : Byte}
    (ha : a < Config.memSize) (hb : b ≠ 0#8) : Memory.wf (Memory.insert m a b) := by
  refine ⟨?_, fun c hc => ?_⟩
  · have hp := h.1
    clear h
    induction m with
    | nil => simp [Memory.insert]
    | cons d m ih =>
      have hd := List.pairwise_cons.mp hp
      simp only [Memory.insert]
      split
      · refine List.pairwise_cons.mpr ⟨fun e he => ?_, ih hd.2⟩
        rcases Memory.mem_insert he with rfl | he
        · assumption
        · exact hd.1 e he
      · split
        · rename_i h; subst h
          exact List.pairwise_cons.mpr ⟨hd.1, hd.2⟩
        · refine List.pairwise_cons.mpr ⟨fun e he => ?_, hp⟩
          rcases List.mem_cons.mp he with rfl | he
          · simp only; omega
          · have := hd.1 e he
            simp only at *; omega
  · rcases Memory.mem_insert hc with rfl | hc
    · exact ⟨ha, hb⟩
    · exact h.2 c hc

/-- Every write inside the address space keeps the canonical form. -/
theorem Memory.store_wf {m : Memory} (h : Memory.wf m) {a : Nat} (b : Byte)
    (ha : a < Config.memSize) : Memory.wf (Memory.store m a b) := by
  unfold Memory.store
  split
  · exact Memory.erase_wf h a
  · exact Memory.insert_wf h ha ‹_›

/-- The memory of reset has the canonical form. -/
theorem State.reset_mem_wf : State.reset.mem.wf := Memory.wf_nil

/-! ### The same, of a state's bytes -/

theorem State.byteAt_setByte (s : State) (a p : Nat) (b : Byte) :
    (s.setByte a b).byteAt p = if p = a then b else s.byteAt p := Memory.load_store s.mem a p b

theorem State.setByte_mem_wf {s : State} (h : s.mem.wf) {a : Nat} (b : Byte)
    (ha : a < Config.memSize) : (s.setByte a b).mem.wf := Memory.store_wf h b ha

/-- Reset's memory reads 0 everywhere (`10_state.md` R35). -/
theorem State.byteAt_reset (a : Nat) : State.reset.byteAt a = 0#8 := rfl

end Sys2Proof.Machine
end

