-- ==== Sys2Proof/Laws/State.lean ====
section
/-! SUPPORT. State.lean: what every named update of the state does to every field and accessor, one
lemma each, so that no later proof unfolds a record update. -/

namespace Sys2Proof.Machine

variable (s : State)

/-! ### `setV` -/

@[simp] theorem State.setV_i (q : Reg) (b : Byte) : (s.setV q b).i = s.i := rfl
@[simp] theorem State.setV_pc (q : Reg) (b : Byte) : (s.setV q b).pc = s.pc := rfl
@[simp] theorem State.setV_stack (q : Reg) (b : Byte) : (s.setV q b).stack = s.stack := rfl
@[simp] theorem State.setV_sp (q : Reg) (b : Byte) : (s.setV q b).sp = s.sp := rfl
@[simp] theorem State.setV_dt (q : Reg) (b : Byte) : (s.setV q b).dt = s.dt := rfl
@[simp] theorem State.setV_st (q : Reg) (b : Byte) : (s.setV q b).st = s.st := rfl
@[simp] theorem State.setV_fb (q : Reg) (b : Byte) : (s.setV q b).fb = s.fb := rfl
@[simp] theorem State.setV_mode (q : Reg) (b : Byte) : (s.setV q b).mode = s.mode := rfl
@[simp] theorem State.setV_mem (q : Reg) (b : Byte) : (s.setV q b).mem = s.mem := rfl
@[simp] theorem State.setV_inputs (q : Reg) (b : Byte) : (s.setV q b).inputs = s.inputs := rfl
@[simp] theorem State.setV_inputNo (q : Reg) (b : Byte) : (s.setV q b).inputNo = s.inputNo := rfl
@[simp] theorem State.setV_params (q : Reg) (b : Byte) : (s.setV q b).params = s.params := rfl
@[simp] theorem State.setV_stackAt (q : Reg) (b : Byte) (k : Fin 16) : (s.setV q b).stackAt k = s.stackAt k := rfl
@[simp] theorem State.setV_pixel (q : Reg) (b : Byte) (y : Fin 32) (x : Fin 64) : (s.setV q b).pixel y x = s.pixel y x := rfl
@[simp] theorem State.setV_byteAt (q : Reg) (b : Byte) (a : Nat) : (s.setV q b).byteAt a = s.byteAt a := rfl
@[simp] theorem State.setV_sample (q : Reg) (b : Byte) : (s.setV q b).sample = s.sample := rfl

/-! ### `setI` -/

@[simp] theorem State.setI_v (w : Word) : (s.setI w).v = s.v := rfl
@[simp] theorem State.setI_i (w : Word) : (s.setI w).i = w := rfl
@[simp] theorem State.setI_pc (w : Word) : (s.setI w).pc = s.pc := rfl
@[simp] theorem State.setI_stack (w : Word) : (s.setI w).stack = s.stack := rfl
@[simp] theorem State.setI_sp (w : Word) : (s.setI w).sp = s.sp := rfl
@[simp] theorem State.setI_dt (w : Word) : (s.setI w).dt = s.dt := rfl
@[simp] theorem State.setI_st (w : Word) : (s.setI w).st = s.st := rfl
@[simp] theorem State.setI_fb (w : Word) : (s.setI w).fb = s.fb := rfl
@[simp] theorem State.setI_mode (w : Word) : (s.setI w).mode = s.mode := rfl
@[simp] theorem State.setI_mem (w : Word) : (s.setI w).mem = s.mem := rfl
@[simp] theorem State.setI_inputs (w : Word) : (s.setI w).inputs = s.inputs := rfl
@[simp] theorem State.setI_inputNo (w : Word) : (s.setI w).inputNo = s.inputNo := rfl
@[simp] theorem State.setI_params (w : Word) : (s.setI w).params = s.params := rfl
@[simp] theorem State.setI_getV (w : Word) (r : Reg) : (s.setI w).getV r = s.getV r := rfl
@[simp] theorem State.setI_stackAt (w : Word) (k : Fin 16) : (s.setI w).stackAt k = s.stackAt k := rfl
@[simp] theorem State.setI_pixel (w : Word) (y : Fin 32) (x : Fin 64) : (s.setI w).pixel y x = s.pixel y x := rfl
@[simp] theorem State.setI_byteAt (w : Word) (a : Nat) : (s.setI w).byteAt a = s.byteAt a := rfl
@[simp] theorem State.setI_sample (w : Word) : (s.setI w).sample = s.sample := rfl

/-! ### `setPc` -/

@[simp] theorem State.setPc_v (w : Word) : (s.setPc w).v = s.v := rfl
@[simp] theorem State.setPc_i (w : Word) : (s.setPc w).i = s.i := rfl
@[simp] theorem State.setPc_pc (w : Word) : (s.setPc w).pc = w := rfl
@[simp] theorem State.setPc_stack (w : Word) : (s.setPc w).stack = s.stack := rfl
@[simp] theorem State.setPc_sp (w : Word) : (s.setPc w).sp = s.sp := rfl
@[simp] theorem State.setPc_dt (w : Word) : (s.setPc w).dt = s.dt := rfl
@[simp] theorem State.setPc_st (w : Word) : (s.setPc w).st = s.st := rfl
@[simp] theorem State.setPc_fb (w : Word) : (s.setPc w).fb = s.fb := rfl
@[simp] theorem State.setPc_mode (w : Word) : (s.setPc w).mode = s.mode := rfl
@[simp] theorem State.setPc_mem (w : Word) : (s.setPc w).mem = s.mem := rfl
@[simp] theorem State.setPc_inputs (w : Word) : (s.setPc w).inputs = s.inputs := rfl
@[simp] theorem State.setPc_inputNo (w : Word) : (s.setPc w).inputNo = s.inputNo := rfl
@[simp] theorem State.setPc_params (w : Word) : (s.setPc w).params = s.params := rfl
@[simp] theorem State.setPc_getV (w : Word) (r : Reg) : (s.setPc w).getV r = s.getV r := rfl
@[simp] theorem State.setPc_stackAt (w : Word) (k : Fin 16) : (s.setPc w).stackAt k = s.stackAt k := rfl
@[simp] theorem State.setPc_pixel (w : Word) (y : Fin 32) (x : Fin 64) : (s.setPc w).pixel y x = s.pixel y x := rfl
@[simp] theorem State.setPc_byteAt (w : Word) (a : Nat) : (s.setPc w).byteAt a = s.byteAt a := rfl
@[simp] theorem State.setPc_sample (w : Word) : (s.setPc w).sample = s.sample := rfl

/-! ### `setDt` -/

@[simp] theorem State.setDt_v (b : Byte) : (s.setDt b).v = s.v := rfl
@[simp] theorem State.setDt_i (b : Byte) : (s.setDt b).i = s.i := rfl
@[simp] theorem State.setDt_pc (b : Byte) : (s.setDt b).pc = s.pc := rfl
@[simp] theorem State.setDt_stack (b : Byte) : (s.setDt b).stack = s.stack := rfl
@[simp] theorem State.setDt_sp (b : Byte) : (s.setDt b).sp = s.sp := rfl
@[simp] theorem State.setDt_dt (b : Byte) : (s.setDt b).dt = b := rfl
@[simp] theorem State.setDt_st (b : Byte) : (s.setDt b).st = s.st := rfl
@[simp] theorem State.setDt_fb (b : Byte) : (s.setDt b).fb = s.fb := rfl
@[simp] theorem State.setDt_mode (b : Byte) : (s.setDt b).mode = s.mode := rfl
@[simp] theorem State.setDt_mem (b : Byte) : (s.setDt b).mem = s.mem := rfl
@[simp] theorem State.setDt_inputs (b : Byte) : (s.setDt b).inputs = s.inputs := rfl
@[simp] theorem State.setDt_inputNo (b : Byte) : (s.setDt b).inputNo = s.inputNo := rfl
@[simp] theorem State.setDt_params (b : Byte) : (s.setDt b).params = s.params := rfl
@[simp] theorem State.setDt_getV (b : Byte) (r : Reg) : (s.setDt b).getV r = s.getV r := rfl
@[simp] theorem State.setDt_stackAt (b : Byte) (k : Fin 16) : (s.setDt b).stackAt k = s.stackAt k := rfl
@[simp] theorem State.setDt_pixel (b : Byte) (y : Fin 32) (x : Fin 64) : (s.setDt b).pixel y x = s.pixel y x := rfl
@[simp] theorem State.setDt_byteAt (b : Byte) (a : Nat) : (s.setDt b).byteAt a = s.byteAt a := rfl
@[simp] theorem State.setDt_sample (b : Byte) : (s.setDt b).sample = s.sample := rfl

/-! ### `setSt` -/

@[simp] theorem State.setSt_v (b : Byte) : (s.setSt b).v = s.v := rfl
@[simp] theorem State.setSt_i (b : Byte) : (s.setSt b).i = s.i := rfl
@[simp] theorem State.setSt_pc (b : Byte) : (s.setSt b).pc = s.pc := rfl
@[simp] theorem State.setSt_stack (b : Byte) : (s.setSt b).stack = s.stack := rfl
@[simp] theorem State.setSt_sp (b : Byte) : (s.setSt b).sp = s.sp := rfl
@[simp] theorem State.setSt_dt (b : Byte) : (s.setSt b).dt = s.dt := rfl
@[simp] theorem State.setSt_st (b : Byte) : (s.setSt b).st = b := rfl
@[simp] theorem State.setSt_fb (b : Byte) : (s.setSt b).fb = s.fb := rfl
@[simp] theorem State.setSt_mode (b : Byte) : (s.setSt b).mode = s.mode := rfl
@[simp] theorem State.setSt_mem (b : Byte) : (s.setSt b).mem = s.mem := rfl
@[simp] theorem State.setSt_inputs (b : Byte) : (s.setSt b).inputs = s.inputs := rfl
@[simp] theorem State.setSt_inputNo (b : Byte) : (s.setSt b).inputNo = s.inputNo := rfl
@[simp] theorem State.setSt_params (b : Byte) : (s.setSt b).params = s.params := rfl
@[simp] theorem State.setSt_getV (b : Byte) (r : Reg) : (s.setSt b).getV r = s.getV r := rfl
@[simp] theorem State.setSt_stackAt (b : Byte) (k : Fin 16) : (s.setSt b).stackAt k = s.stackAt k := rfl
@[simp] theorem State.setSt_pixel (b : Byte) (y : Fin 32) (x : Fin 64) : (s.setSt b).pixel y x = s.pixel y x := rfl
@[simp] theorem State.setSt_byteAt (b : Byte) (a : Nat) : (s.setSt b).byteAt a = s.byteAt a := rfl
@[simp] theorem State.setSt_sample (b : Byte) : (s.setSt b).sample = s.sample := rfl

/-! ### `setMode` -/

@[simp] theorem State.setMode_v (m : Mode) : (s.setMode m).v = s.v := rfl
@[simp] theorem State.setMode_i (m : Mode) : (s.setMode m).i = s.i := rfl
@[simp] theorem State.setMode_pc (m : Mode) : (s.setMode m).pc = s.pc := rfl
@[simp] theorem State.setMode_stack (m : Mode) : (s.setMode m).stack = s.stack := rfl
@[simp] theorem State.setMode_sp (m : Mode) : (s.setMode m).sp = s.sp := rfl
@[simp] theorem State.setMode_dt (m : Mode) : (s.setMode m).dt = s.dt := rfl
@[simp] theorem State.setMode_st (m : Mode) : (s.setMode m).st = s.st := rfl
@[simp] theorem State.setMode_fb (m : Mode) : (s.setMode m).fb = s.fb := rfl
@[simp] theorem State.setMode_mode (m : Mode) : (s.setMode m).mode = m := rfl
@[simp] theorem State.setMode_mem (m : Mode) : (s.setMode m).mem = s.mem := rfl
@[simp] theorem State.setMode_inputs (m : Mode) : (s.setMode m).inputs = s.inputs := rfl
@[simp] theorem State.setMode_inputNo (m : Mode) : (s.setMode m).inputNo = s.inputNo := rfl
@[simp] theorem State.setMode_params (m : Mode) : (s.setMode m).params = s.params := rfl
@[simp] theorem State.setMode_getV (m : Mode) (r : Reg) : (s.setMode m).getV r = s.getV r := rfl
@[simp] theorem State.setMode_stackAt (m : Mode) (k : Fin 16) : (s.setMode m).stackAt k = s.stackAt k := rfl
@[simp] theorem State.setMode_pixel (m : Mode) (y : Fin 32) (x : Fin 64) : (s.setMode m).pixel y x = s.pixel y x := rfl
@[simp] theorem State.setMode_byteAt (m : Mode) (a : Nat) : (s.setMode m).byteAt a = s.byteAt a := rfl
@[simp] theorem State.setMode_sample (m : Mode) : (s.setMode m).sample = s.sample := rfl

/-! ### `setPixel` -/

@[simp] theorem State.setPixel_v (row : Fin 32) (col : Fin 64) (on : Bool) : (s.setPixel row col on).v = s.v := rfl
@[simp] theorem State.setPixel_i (row : Fin 32) (col : Fin 64) (on : Bool) : (s.setPixel row col on).i = s.i := rfl
@[simp] theorem State.setPixel_pc (row : Fin 32) (col : Fin 64) (on : Bool) : (s.setPixel row col on).pc = s.pc := rfl
@[simp] theorem State.setPixel_stack (row : Fin 32) (col : Fin 64) (on : Bool) : (s.setPixel row col on).stack = s.stack := rfl
@[simp] theorem State.setPixel_sp (row : Fin 32) (col : Fin 64) (on : Bool) : (s.setPixel row col on).sp = s.sp := rfl
@[simp] theorem State.setPixel_dt (row : Fin 32) (col : Fin 64) (on : Bool) : (s.setPixel row col on).dt = s.dt := rfl
@[simp] theorem State.setPixel_st (row : Fin 32) (col : Fin 64) (on : Bool) : (s.setPixel row col on).st = s.st := rfl
@[simp] theorem State.setPixel_mode (row : Fin 32) (col : Fin 64) (on : Bool) : (s.setPixel row col on).mode = s.mode := rfl
@[simp] theorem State.setPixel_mem (row : Fin 32) (col : Fin 64) (on : Bool) : (s.setPixel row col on).mem = s.mem := rfl
@[simp] theorem State.setPixel_inputs (row : Fin 32) (col : Fin 64) (on : Bool) : (s.setPixel row col on).inputs = s.inputs := rfl
@[simp] theorem State.setPixel_inputNo (row : Fin 32) (col : Fin 64) (on : Bool) : (s.setPixel row col on).inputNo = s.inputNo := rfl
@[simp] theorem State.setPixel_params (row : Fin 32) (col : Fin 64) (on : Bool) : (s.setPixel row col on).params = s.params := rfl
@[simp] theorem State.setPixel_getV (row : Fin 32) (col : Fin 64) (on : Bool) (r : Reg) : (s.setPixel row col on).getV r = s.getV r := rfl
@[simp] theorem State.setPixel_stackAt (row : Fin 32) (col : Fin 64) (on : Bool) (k : Fin 16) : (s.setPixel row col on).stackAt k = s.stackAt k := rfl
@[simp] theorem State.setPixel_byteAt (row : Fin 32) (col : Fin 64) (on : Bool) (a : Nat) : (s.setPixel row col on).byteAt a = s.byteAt a := rfl
@[simp] theorem State.setPixel_sample (row : Fin 32) (col : Fin 64) (on : Bool) : (s.setPixel row col on).sample = s.sample := rfl

/-! ### `clearScreen` -/

@[simp] theorem State.clearScreen_v : s.clearScreen.v = s.v := rfl
@[simp] theorem State.clearScreen_i : s.clearScreen.i = s.i := rfl
@[simp] theorem State.clearScreen_pc : s.clearScreen.pc = s.pc := rfl
@[simp] theorem State.clearScreen_stack : s.clearScreen.stack = s.stack := rfl
@[simp] theorem State.clearScreen_sp : s.clearScreen.sp = s.sp := rfl
@[simp] theorem State.clearScreen_dt : s.clearScreen.dt = s.dt := rfl
@[simp] theorem State.clearScreen_st : s.clearScreen.st = s.st := rfl
@[simp] theorem State.clearScreen_mode : s.clearScreen.mode = s.mode := rfl
@[simp] theorem State.clearScreen_mem : s.clearScreen.mem = s.mem := rfl
@[simp] theorem State.clearScreen_inputs : s.clearScreen.inputs = s.inputs := rfl
@[simp] theorem State.clearScreen_inputNo : s.clearScreen.inputNo = s.inputNo := rfl
@[simp] theorem State.clearScreen_params : s.clearScreen.params = s.params := rfl
@[simp] theorem State.clearScreen_getV (r : Reg) : s.clearScreen.getV r = s.getV r := rfl
@[simp] theorem State.clearScreen_stackAt (k : Fin 16) : s.clearScreen.stackAt k = s.stackAt k := rfl
@[simp] theorem State.clearScreen_byteAt (a : Nat) : s.clearScreen.byteAt a = s.byteAt a := rfl
@[simp] theorem State.clearScreen_sample : s.clearScreen.sample = s.sample := rfl

/-! ### `setByte` -/

@[simp] theorem State.setByte_v (p : Nat) (b : Byte) : (s.setByte p b).v = s.v := rfl
@[simp] theorem State.setByte_i (p : Nat) (b : Byte) : (s.setByte p b).i = s.i := rfl
@[simp] theorem State.setByte_pc (p : Nat) (b : Byte) : (s.setByte p b).pc = s.pc := rfl
@[simp] theorem State.setByte_stack (p : Nat) (b : Byte) : (s.setByte p b).stack = s.stack := rfl
@[simp] theorem State.setByte_sp (p : Nat) (b : Byte) : (s.setByte p b).sp = s.sp := rfl
@[simp] theorem State.setByte_dt (p : Nat) (b : Byte) : (s.setByte p b).dt = s.dt := rfl
@[simp] theorem State.setByte_st (p : Nat) (b : Byte) : (s.setByte p b).st = s.st := rfl
@[simp] theorem State.setByte_fb (p : Nat) (b : Byte) : (s.setByte p b).fb = s.fb := rfl
@[simp] theorem State.setByte_mode (p : Nat) (b : Byte) : (s.setByte p b).mode = s.mode := rfl
@[simp] theorem State.setByte_inputs (p : Nat) (b : Byte) : (s.setByte p b).inputs = s.inputs := rfl
@[simp] theorem State.setByte_inputNo (p : Nat) (b : Byte) : (s.setByte p b).inputNo = s.inputNo := rfl
@[simp] theorem State.setByte_params (p : Nat) (b : Byte) : (s.setByte p b).params = s.params := rfl
@[simp] theorem State.setByte_getV (p : Nat) (b : Byte) (r : Reg) : (s.setByte p b).getV r = s.getV r := rfl
@[simp] theorem State.setByte_stackAt (p : Nat) (b : Byte) (k : Fin 16) : (s.setByte p b).stackAt k = s.stackAt k := rfl
@[simp] theorem State.setByte_pixel (p : Nat) (b : Byte) (y : Fin 32) (x : Fin 64) : (s.setByte p b).pixel y x = s.pixel y x := rfl
@[simp] theorem State.setByte_sample (p : Nat) (b : Byte) : (s.setByte p b).sample = s.sample := rfl

/-! ### `tick` -/

@[simp] theorem State.tick_v : s.tick.v = s.v := rfl
@[simp] theorem State.tick_i : s.tick.i = s.i := rfl
@[simp] theorem State.tick_pc : s.tick.pc = s.pc := rfl
@[simp] theorem State.tick_stack : s.tick.stack = s.stack := rfl
@[simp] theorem State.tick_sp : s.tick.sp = s.sp := rfl
@[simp] theorem State.tick_dt : s.tick.dt = countDown s.dt := rfl
@[simp] theorem State.tick_st : s.tick.st = countDown s.st := rfl
@[simp] theorem State.tick_fb : s.tick.fb = s.fb := rfl
@[simp] theorem State.tick_mode : s.tick.mode = s.mode := rfl
@[simp] theorem State.tick_mem : s.tick.mem = s.mem := rfl
@[simp] theorem State.tick_inputs : s.tick.inputs = s.inputs := rfl
@[simp] theorem State.tick_inputNo : s.tick.inputNo = s.inputNo := rfl
@[simp] theorem State.tick_params : s.tick.params = s.params := rfl
@[simp] theorem State.tick_getV (r : Reg) : s.tick.getV r = s.getV r := rfl
@[simp] theorem State.tick_stackAt (k : Fin 16) : s.tick.stackAt k = s.stackAt k := rfl
@[simp] theorem State.tick_pixel (y : Fin 32) (x : Fin 64) : s.tick.pixel y x = s.pixel y x := rfl
@[simp] theorem State.tick_byteAt (a : Nat) : s.tick.byteAt a = s.byteAt a := rfl
@[simp] theorem State.tick_sample : s.tick.sample = s.sample := rfl

/-! ### `dropSample` -/

@[simp] theorem State.dropSample_v : s.dropSample.v = s.v := rfl
@[simp] theorem State.dropSample_i : s.dropSample.i = s.i := rfl
@[simp] theorem State.dropSample_pc : s.dropSample.pc = s.pc := rfl
@[simp] theorem State.dropSample_stack : s.dropSample.stack = s.stack := rfl
@[simp] theorem State.dropSample_sp : s.dropSample.sp = s.sp := rfl
@[simp] theorem State.dropSample_dt : s.dropSample.dt = s.dt := rfl
@[simp] theorem State.dropSample_st : s.dropSample.st = s.st := rfl
@[simp] theorem State.dropSample_fb : s.dropSample.fb = s.fb := rfl
@[simp] theorem State.dropSample_mode : s.dropSample.mode = s.mode := rfl
@[simp] theorem State.dropSample_mem : s.dropSample.mem = s.mem := rfl
@[simp] theorem State.dropSample_inputs : s.dropSample.inputs = s.inputs.tail := rfl
@[simp] theorem State.dropSample_inputNo : s.dropSample.inputNo = s.inputNo + 1 := rfl
@[simp] theorem State.dropSample_params : s.dropSample.params = s.params := rfl
@[simp] theorem State.dropSample_getV (r : Reg) : s.dropSample.getV r = s.getV r := rfl
@[simp] theorem State.dropSample_stackAt (k : Fin 16) : s.dropSample.stackAt k = s.stackAt k := rfl
@[simp] theorem State.dropSample_pixel (y : Fin 32) (x : Fin 64) : s.dropSample.pixel y x = s.pixel y x := rfl
@[simp] theorem State.dropSample_byteAt (a : Nat) : s.dropSample.byteAt a = s.byteAt a := rfl

/-! ### The register, pixel and byte written, and the others -/

theorem State.getV_setV (q r : Reg) (b : Byte) :
    (s.setV q b).getV r = if r = q then b else s.getV r := by
  simp only [State.getV, State.setV, Vector.getElem_set, BitVec.toNat_inj]
  simp [eq_comm]

@[simp] theorem State.getV_setV_self (q : Reg) (b : Byte) : (s.setV q b).getV q = b := by
  simp [State.getV_setV]

theorem State.getV_setV_of_ne {q r : Reg} (h : r ≠ q) (b : Byte) :
    (s.setV q b).getV r = s.getV r := by
  simp [State.getV_setV, h]

theorem State.pixel_setPixel (row y : Fin 32) (col x : Fin 64) (on : Bool) :
    (s.setPixel row col on).pixel y x = if y = row ∧ x = col then on else s.pixel y x := by
  simp only [State.pixel, State.setPixel, Vector.getElem_set]
  by_cases hy : row = y
  · subst hy
    by_cases hx : col = x <;> simp [hx, Fin.val_inj, eq_comm]
  · have : row.val ≠ y.val := fun h => hy (Fin.ext h)
    simp [this, Ne.symm hy]

@[simp] theorem State.pixel_clearScreen (y : Fin 32) (x : Fin 64) :
    s.clearScreen.pixel y x = false := by
  simp [State.pixel, State.clearScreen]

theorem State.keys_of_sample_eq {t : State} (h : t.sample = s.sample) : t.keys = s.keys := by
  simp [State.keys, h]

/-- Updates that leave the sample alone leave `keys` and `rnd` alone. -/
theorem State.rnd_of_sample_eq {t : State} (h : t.sample = s.sample) : t.rnd = s.rnd := by
  simp [State.rnd, h]

/-! ### Two states with the same parts are equal -/

theorem State.v_ext {s t : State} (h : ∀ r, t.getV r = s.getV r) : t.v = s.v := by
  refine Vector.ext fun k hk => ?_
  have := h (BitVec.ofNat 4 k)
  simpa [State.getV, Nat.mod_eq_of_lt hk] using this

/-! ### The derived updates -/

@[simp] theorem State.advance_pc : s.advance.pc = s.pc + 2#16 := rfl
@[simp] theorem State.skipIf_pc (c : Bool) :
    (s.skipIf c).pc = if c then s.pc + 2#16 else s.pc := rfl
@[simp] theorem State.endStep_dt : s.endStep.dt = countDown s.dt := rfl
@[simp] theorem State.endStep_st : s.endStep.st = countDown s.st := rfl
@[simp] theorem State.endStep_inputs : s.endStep.inputs = s.inputs.tail := rfl
@[simp] theorem State.endStep_inputNo : s.endStep.inputNo = s.inputNo + 1 := rfl
@[simp] theorem State.endStep_params : s.endStep.params = s.params := rfl

@[simp] theorem State.advance_v : s.advance.v = s.v := rfl
@[simp] theorem State.advance_i : s.advance.i = s.i := rfl
@[simp] theorem State.advance_stack : s.advance.stack = s.stack := rfl
@[simp] theorem State.advance_sp : s.advance.sp = s.sp := rfl
@[simp] theorem State.advance_dt : s.advance.dt = s.dt := rfl
@[simp] theorem State.advance_st : s.advance.st = s.st := rfl
@[simp] theorem State.advance_fb : s.advance.fb = s.fb := rfl
@[simp] theorem State.advance_mode : s.advance.mode = s.mode := rfl
@[simp] theorem State.advance_mem : s.advance.mem = s.mem := rfl
@[simp] theorem State.advance_inputs : s.advance.inputs = s.inputs := rfl
@[simp] theorem State.advance_inputNo : s.advance.inputNo = s.inputNo := rfl
@[simp] theorem State.advance_params : s.advance.params = s.params := rfl
@[simp] theorem State.advance_getV (r : Reg) : s.advance.getV r = s.getV r := rfl
@[simp] theorem State.advance_stackAt (k : Fin 16) : s.advance.stackAt k = s.stackAt k := rfl
@[simp] theorem State.advance_pixel (y : Fin 32) (x : Fin 64) : s.advance.pixel y x = s.pixel y x := rfl
@[simp] theorem State.advance_byteAt (a : Nat) : s.advance.byteAt a = s.byteAt a := rfl
@[simp] theorem State.advance_sample : s.advance.sample = s.sample := rfl

@[simp] theorem State.skipIf_v (c : Bool) : (s.skipIf c).v = s.v := rfl
@[simp] theorem State.skipIf_i (c : Bool) : (s.skipIf c).i = s.i := rfl
@[simp] theorem State.skipIf_stack (c : Bool) : (s.skipIf c).stack = s.stack := rfl
@[simp] theorem State.skipIf_sp (c : Bool) : (s.skipIf c).sp = s.sp := rfl
@[simp] theorem State.skipIf_dt (c : Bool) : (s.skipIf c).dt = s.dt := rfl
@[simp] theorem State.skipIf_st (c : Bool) : (s.skipIf c).st = s.st := rfl
@[simp] theorem State.skipIf_fb (c : Bool) : (s.skipIf c).fb = s.fb := rfl
@[simp] theorem State.skipIf_mode (c : Bool) : (s.skipIf c).mode = s.mode := rfl
@[simp] theorem State.skipIf_mem (c : Bool) : (s.skipIf c).mem = s.mem := rfl
@[simp] theorem State.skipIf_inputs (c : Bool) : (s.skipIf c).inputs = s.inputs := rfl
@[simp] theorem State.skipIf_inputNo (c : Bool) : (s.skipIf c).inputNo = s.inputNo := rfl
@[simp] theorem State.skipIf_params (c : Bool) : (s.skipIf c).params = s.params := rfl
@[simp] theorem State.skipIf_getV (c : Bool) (r : Reg) : (s.skipIf c).getV r = s.getV r := rfl
@[simp] theorem State.skipIf_stackAt (c : Bool) (k : Fin 16) : (s.skipIf c).stackAt k = s.stackAt k := rfl
@[simp] theorem State.skipIf_pixel (c : Bool) (y : Fin 32) (x : Fin 64) : (s.skipIf c).pixel y x = s.pixel y x := rfl
@[simp] theorem State.skipIf_byteAt (c : Bool) (a : Nat) : (s.skipIf c).byteAt a = s.byteAt a := rfl
@[simp] theorem State.skipIf_sample (c : Bool) : (s.skipIf c).sample = s.sample := rfl

@[simp] theorem State.endStep_v : s.endStep.v = s.v := rfl
@[simp] theorem State.endStep_i : s.endStep.i = s.i := rfl
@[simp] theorem State.endStep_pc : s.endStep.pc = s.pc := rfl
@[simp] theorem State.endStep_stack : s.endStep.stack = s.stack := rfl
@[simp] theorem State.endStep_sp : s.endStep.sp = s.sp := rfl
@[simp] theorem State.endStep_fb : s.endStep.fb = s.fb := rfl
@[simp] theorem State.endStep_mode : s.endStep.mode = s.mode := rfl
@[simp] theorem State.endStep_mem : s.endStep.mem = s.mem := rfl
@[simp] theorem State.endStep_getV (r : Reg) : s.endStep.getV r = s.getV r := rfl
@[simp] theorem State.endStep_stackAt (k : Fin 16) : s.endStep.stackAt k = s.stackAt k := rfl
@[simp] theorem State.endStep_pixel (y : Fin 32) (x : Fin 64) : s.endStep.pixel y x = s.pixel y x := rfl
@[simp] theorem State.endStep_byteAt (a : Nat) : s.endStep.byteAt a = s.byteAt a := rfl

@[simp] theorem State.setFlag_i (c : Bool) : (s.setFlag c).i = s.i := rfl
@[simp] theorem State.setFlag_pc (c : Bool) : (s.setFlag c).pc = s.pc := rfl
@[simp] theorem State.setFlag_stack (c : Bool) : (s.setFlag c).stack = s.stack := rfl
@[simp] theorem State.setFlag_sp (c : Bool) : (s.setFlag c).sp = s.sp := rfl
@[simp] theorem State.setFlag_dt (c : Bool) : (s.setFlag c).dt = s.dt := rfl
@[simp] theorem State.setFlag_st (c : Bool) : (s.setFlag c).st = s.st := rfl
@[simp] theorem State.setFlag_fb (c : Bool) : (s.setFlag c).fb = s.fb := rfl
@[simp] theorem State.setFlag_mode (c : Bool) : (s.setFlag c).mode = s.mode := rfl
@[simp] theorem State.setFlag_mem (c : Bool) : (s.setFlag c).mem = s.mem := rfl
@[simp] theorem State.setFlag_inputs (c : Bool) : (s.setFlag c).inputs = s.inputs := rfl
@[simp] theorem State.setFlag_inputNo (c : Bool) : (s.setFlag c).inputNo = s.inputNo := rfl
@[simp] theorem State.setFlag_params (c : Bool) : (s.setFlag c).params = s.params := rfl
@[simp] theorem State.setFlag_stackAt (c : Bool) (k : Fin 16) : (s.setFlag c).stackAt k = s.stackAt k := rfl
@[simp] theorem State.setFlag_pixel (c : Bool) (y : Fin 32) (x : Fin 64) : (s.setFlag c).pixel y x = s.pixel y x := rfl
@[simp] theorem State.setFlag_byteAt (c : Bool) (a : Nat) : (s.setFlag c).byteAt a = s.byteAt a := rfl
@[simp] theorem State.setFlag_sample (c : Bool) : (s.setFlag c).sample = s.sample := rfl

theorem State.getV_setFlag (r : Reg) (c : Bool) :
    (s.setFlag c).getV r = if r = vf then flagByte c else s.getV r := State.getV_setV s vf r _

@[simp] theorem State.setFlag_vf (c : Bool) : (s.setFlag c).getV vf = flagByte c :=
  State.getV_setV_self s vf _

/-- `ADD Vx, Vy`'s write order: the flag stands where both go to `VF` (`42_alu.md` R120). -/
theorem State.getV_resultThenFlag (x r : Reg) (b : Byte) (c : Bool) :
    (s.resultThenFlag x b c).getV r =
      if r = vf then flagByte c else if r = x then b else s.getV r := by
  simp [State.resultThenFlag, State.getV_setFlag, State.getV_setV]

/-- The other flag-writing instructions' order: the result stands (`42_alu.md` R120). -/
theorem State.getV_flagThenResult (x r : Reg) (b : Byte) (c : Bool) :
    (s.flagThenResult x b c).getV r =
      if r = x then b else if r = vf then flagByte c else s.getV r := by
  simp [State.flagThenResult, State.getV_setFlag, State.getV_setV]

end Sys2Proof.Machine
end

