-- ==== Sys2Proof/Laws/Ops.lean ====
section
/-! SUPPORT. Ops.lean: for each shared operation one lemma that says everything it can do, to be cited
where the operation is called. -/

namespace Sys2Proof.Machine

/-! ### Sequencing -/

@[simp] theorem andThen_next (s : State) (k : State → Result) : andThen (.next s) k = k s := rfl
@[simp] theorem andThen_fault (f : Fault) (k : State → Result) :
    andThen (.fault f) k = .fault f := rfl
@[simp] theorem andThen_refused (u : Refusal) (k : State → Result) :
    andThen (.refused u) k = .refused u := rfl

@[simp] theorem finish_next (s : State) : finish (.next s) = .next s.endStep := rfl
@[simp] theorem finish_fault (f : Fault) : finish (.fault f) = .fault f := rfl
@[simp] theorem finish_refused (u : Refusal) : finish (.refused u) = .refused u := rfl

/-- A finished step is next exactly when the instruction was, and adds the end of the step. -/
theorem finish_eq_next {r : Result} {t : State} (h : finish r = .next t) :
    ∃ u, r = .next u ∧ t = u.endStep := by
  cases r with
  | next u => exact ⟨u, rfl, by simpa using h.symm⟩
  | fault f => simp at h
  | refused u => simp at h

/-- A finished step faults exactly as the instruction did: no tick. -/
theorem finish_eq_fault {r : Result} {f : Fault} (h : finish r = .fault f) : r = .fault f := by
  cases r with
  | next u => simp at h
  | fault g => simpa using h
  | refused u => simp at h

/-! ### One byte of memory -/

theorem memRead_of_lt {a : Nat} (h : a < 4096) (s : State) (k : Byte → Result) :
    memRead a s k = k (s.byteAt a) := by simp [memRead, Config.memSize, h]

theorem memRead_of_ge {a : Nat} (h : 4096 ≤ a) (s : State) (k : Byte → Result) :
    memRead a s k = .fault (.addressOutOfRange a s) := by
  simp [memRead, Config.memSize, Nat.not_lt.mpr h]

theorem memWrite_of_lt {a : Nat} (h : a < 4096) (b : Byte) (s : State) :
    memWrite a b s = .next (s.setByte a b) := by simp [memWrite, Config.memSize, h]

theorem memWrite_of_ge {a : Nat} (h : 4096 ≤ a) (b : Byte) (s : State) :
    memWrite a b s = .fault (.addressOutOfRange a s) := by
  simp [memWrite, Config.memSize, Nat.not_lt.mpr h]

/-! ### Several bytes of memory -/

/-- What `storeBytes` does: the bytes that lie in the address space are written, everything else is
as before, and it faults at the first address outside, if there is one. -/
theorem storeBytes_spec (bs : List Byte) (a : Nat) (s : State) :
    ∃ t, storeBytes a bs s =
        (if bs = [] ∨ a + bs.length ≤ 4096 then .next t
         else .fault (.addressOutOfRange (max a 4096) t)) ∧
      t = { s with mem := t.mem } ∧ (s.mem.wf → t.mem.wf) ∧
      (∀ k (h : k < bs.length), a + k < 4096 → t.byteAt (a + k) = bs[k]) ∧
      ∀ p, p < a ∨ a + bs.length ≤ p ∨ 4096 ≤ p → t.byteAt p = s.byteAt p := by
  induction bs generalizing a s with
  | nil => exact ⟨s, by simp [storeBytes], rfl, id, fun k h => absurd h (by simp), fun _ _ => rfl⟩
  | cons b bs ih =>
    rcases Nat.lt_or_ge a 4096 with ha | ha
    · obtain ⟨t, hr, hs, hw, hb, ho⟩ := ih (a + 1) (s.setByte a b)
      refine ⟨t, ?_, ?_, ?_, ?_, ?_⟩
      · simp only [storeBytes, memWrite_of_lt ha, andThen_next, hr, List.length_cons, reduceCtorEq,
          false_or]
        by_cases hn : bs = []
        · subst hn; simp only [true_or, if_true, List.length_nil]; rw [if_pos (by omega)]
        · have e1 : max (a + 1) 4096 = max a 4096 := by omega
          have e2 : a + (bs.length + 1) = a + 1 + bs.length := by omega
          simp [hn, e1, e2]
      · rw [hs]; rfl
      · exact fun h => hw (State.setByte_mem_wf h b (by simpa [Config.memSize] using ha))
      · intro k hk hlt
        cases k with
        | zero =>
          rw [ho (a + 0) (by omega), State.byteAt_setByte]; simp
        | succ k =>
          have := hb k (by simpa using hk) (by omega)
          simpa [Nat.add_assoc, Nat.add_comm 1 k] using this
      · intro p hp
        rw [List.length_cons] at hp
        rw [ho p (by omega), State.byteAt_setByte, if_neg (by omega)]
    · refine ⟨s, ?_, rfl, id, ?_, fun _ _ => rfl⟩
      · have : ¬ a + (bs.length + 1) ≤ 4096 := by omega
        simp [storeBytes, memWrite_of_ge ha, this, Nat.max_eq_left ha]
      · intro k _ hlt; omega

/-- What `loadRegs` does: the registers whose bytes lie in the address space are loaded, everything
else is as before, and it faults at the first address outside, if there is one. -/
theorem loadRegs_spec (rs : List Reg) (hn : rs.Nodup) (a : Nat) (s : State) :
    ∃ t, loadRegs a rs s =
        (if rs = [] ∨ a + rs.length ≤ 4096 then .next t
         else .fault (.addressOutOfRange (max a 4096) t)) ∧
      t = { s with v := t.v } ∧
      (∀ k (h : k < rs.length), t.getV rs[k] =
        if a + k < 4096 then s.byteAt (a + k) else s.getV rs[k]) ∧
      ∀ r, r ∉ rs → t.getV r = s.getV r := by
  induction rs generalizing a s with
  | nil => exact ⟨s, by simp [loadRegs], rfl, fun k h => absurd h (by simp), fun _ _ => rfl⟩
  | cons r rs ih =>
    have hr := List.nodup_cons.mp hn
    rcases Nat.lt_or_ge a 4096 with ha | ha
    · obtain ⟨t, h1, hs, hb, ho⟩ := ih hr.2 (a + 1) (s.setV r (s.byteAt a))
      refine ⟨t, ?_, ?_, ?_, ?_⟩
      · simp only [loadRegs, memRead_of_lt ha, h1, List.length_cons, reduceCtorEq, false_or]
        by_cases hn : rs = []
        · subst hn; simp only [true_or, if_true, List.length_nil]; rw [if_pos (by omega)]
        · have e1 : max (a + 1) 4096 = max a 4096 := by omega
          have e2 : a + (rs.length + 1) = a + 1 + rs.length := by omega
          simp [hn, e1, e2]
      · rw [hs]; rfl
      · intro k hk
        cases k with
        | zero => simp [ho r hr.1, ha]
        | succ k =>
          have hk' : k < rs.length := by simpa using hk
          have hne : rs[k] ≠ r := fun h => hr.1 (h ▸ List.getElem_mem hk')
          have := hb k hk'
          simpa [Nat.add_assoc, Nat.add_comm 1 k, State.getV_setV_of_ne s hne] using this
      · intro q hq
        rw [List.mem_cons, not_or] at hq
        rw [ho q hq.2, State.getV_setV_of_ne s hq.1]
    · refine ⟨s, ?_, rfl, ?_, fun _ _ => rfl⟩
      · have : ¬ a + (rs.length + 1) ≤ 4096 := by omega
        simp [loadRegs, memRead_of_ge ha, this, Nat.max_eq_left ha]
      · intro k _; rw [if_neg (by omega)]

/-! ### The registers `V0` to `Vx` -/

@[simp] theorem length_regsUpTo (x : Reg) : (regsUpTo x).length = x.toNat + 1 := by
  simp [regsUpTo]

theorem getElem_regsUpTo (x : Reg) (k : Nat) (h : k < (regsUpTo x).length) :
    (regsUpTo x)[k] = BitVec.ofNat 4 k := by
  simp [regsUpTo]

@[simp] theorem regsUpTo_ne_nil (x : Reg) : regsUpTo x ≠ [] := by
  intro h; simpa using congrArg List.length h

theorem mem_regsUpTo (x r : Reg) : r ∈ regsUpTo x ↔ r.toNat ≤ x.toNat := by
  simp only [regsUpTo, List.mem_map, List.mem_range]
  constructor
  · rintro ⟨k, hk, rfl⟩
    simp only [BitVec.toNat_ofNat]
    have := Nat.mod_le k (2 ^ 4)
    omega
  · exact fun h => ⟨r.toNat, by omega, by simp⟩

theorem nodup_regsUpTo (x : Reg) : (regsUpTo x).Nodup := by
  revert x; decide

/-! ### The call stack -/

theorem push_of_lt {s : State} (h : s.sp.val < 16) (w : Word) (k : State → Result) :
    push w s k =
      k { s with stack := s.stack.set s.sp.val w, sp := ⟨s.sp.val + 1, by omega⟩ } := by
  simp [push, h]

theorem push_of_full {s : State} (h : s.sp.val = 16) (w : Word) (k : State → Result) :
    push w s k = .fault (.stackOverflow s) := by
  simp [push, h]

theorem pop_of_pos {s : State} (h : 0 < s.sp.val) (k : Word → State → Result) :
    pop s k = k (s.stackAt ⟨s.sp.val - 1, by omega⟩) { s with sp := ⟨s.sp.val - 1, by omega⟩ } := by
  simp [pop, h, State.stackAt]

theorem pop_of_empty {s : State} (h : s.sp.val = 0) (k : Word → State → Result) :
    pop s k = .fault (.stackUnderflow s) := by
  simp [pop, h]

/-! ### Timers and keys -/

theorem countDown_toNat (t : Byte) : (countDown t).toNat = t.toNat - 1 := by
  revert t; decide

/-- The least pressed key, or none when no key is pressed. -/
theorem lowestKey_spec (keys : Word) :
    match lowestKey keys with
    | some k => keys.getLsbD k.toNat = true ∧ ∀ j, j < k.toNat → keys.getLsbD j = false
    | none => keys = 0#16 := by
  unfold lowestKey
  cases h : (List.range 16).find? fun k => keys.getLsbD k with
  | none =>
    simp only [Option.map_none]
    refine BitVec.eq_of_getLsbD_eq fun j hj => ?_
    have := List.find?_eq_none.mp h j (List.mem_range.mpr hj)
    simpa using this
  | some k =>
    simp only [Option.map_some]
    have hk := List.find?_range_eq_some.mp h
    have h16 : k < 16 := by simpa using hk.2.1
    have e : (BitVec.ofNat 4 k).toNat = k := by simp; omega
    rw [e]
    exact ⟨by simpa using hk.1, fun j hj => by simpa using hk.2.2 j hj⟩

/-- `KeyWait` when no key is pressed. -/
theorem keyWaitWith_of_none (e : Config.KeyWaitExtraTick) (x : Reg) {s : State}
    (h : s.keys = 0#16) :
    keyWaitWith e x s =
      if e = .never then s.setMode (.awaitingKey x) else (s.setMode (.awaitingKey x)).tick := by
  have : lowestKey s.keys = none := by rw [h]; decide
  simp [keyWaitWith, this]

/-- `KeyWait` when some key is pressed: the least one is stored. -/
theorem keyWaitWith_of_some (e : Config.KeyWaitExtraTick) (x : Reg) {s : State}
    (h : s.keys ≠ 0#16) :
    ∃ k : Nibble, s.keyDown k.toNat = true ∧ (∀ j, j < k.toNat → s.keyDown j = false) ∧
      keyWaitWith e x s =
        if e = .always then ((s.setV x (k.setWidth 8)).setMode .running).tick
        else (s.setV x (k.setWidth 8)).setMode .running := by
  have hs := lowestKey_spec s.keys
  cases hk : lowestKey s.keys with
  | none => rw [hk] at hs; exact absurd hs h
  | some k =>
    rw [hk] at hs
    exact ⟨k, hs.1, hs.2, by simp [keyWaitWith, hk]⟩

/-- A key wait leaves the memory itself, not only what it reads as, and the parameters. -/
@[simp] theorem keyWaitWith_mem (e : Config.KeyWaitExtraTick) (x : Reg) (s : State) :
    (keyWaitWith e x s).mem = s.mem := by
  unfold keyWaitWith
  split <;> simp only <;> split <;> rfl

@[simp] theorem keyWaitWith_params (e : Config.KeyWaitExtraTick) (x : Reg) (s : State) :
    (keyWaitWith e x s).params = s.params := by
  unfold keyWaitWith
  split <;> simp only <;> split <;> rfl

@[simp] theorem keyWait_mem (x : Reg) (s : State) : (keyWait x s).mem = s.mem := keyWaitWith_mem _ x s

@[simp] theorem keyWait_params (x : Reg) (s : State) : (keyWait x s).params = s.params :=
  keyWaitWith_params _ x s

/-! ### Fetch -/

theorem fetch_of_lt {s : State} (h : s.pc.toNat + 1 < 4096) (k : Word → State → Result) :
    fetch s k = k (s.byteAt s.pc.toNat ++ s.byteAt (s.pc.toNat + 1)) s.advance := by
  simp [fetch, memRead_of_lt h, memRead_of_lt (Nat.lt_of_succ_lt h)]

theorem fetch_of_last {s : State} (h : s.pc.toNat = 4095) (k : Word → State → Result) :
    fetch s k = .fault (.addressOutOfRange 4096 s) := by
  rw [fetch, memRead_of_lt (by omega), memRead_of_ge (by omega), h]

theorem fetch_of_ge {s : State} (h : 4096 ≤ s.pc.toNat) (k : Word → State → Result) :
    fetch s k = .fault (.addressOutOfRange s.pc.toNat s) := by
  rw [fetch, memRead_of_ge h]

/-! ### Parameters -/

/-- The defaults meet the constraints of `00_scope.md` R5, whatever the open `FONT_START` is. -/
theorem Config.defaults_ok : Config.defaults.ok := by
  have h := Config.fontStart.isLt
  refine ⟨?_, by decide⟩
  show Config.fontStart.val + 80 ≤ 512
  omega

/-! ### Bytes placed by the host -/

/-- What `place` does: the bytes are written, everything else is as before. -/
theorem State.place_spec (bs : List Byte) (a : Nat) (s : State) :
    s.place a bs = { s with mem := (s.place a bs).mem } ∧
      (s.mem.wf → a + bs.length ≤ 4096 → (s.place a bs).mem.wf) ∧
      (∀ k (h : k < bs.length), (s.place a bs).byteAt (a + k) = bs[k]) ∧
      ∀ p, p < a ∨ a + bs.length ≤ p → (s.place a bs).byteAt p = s.byteAt p := by
  induction bs generalizing a s with
  | nil => exact ⟨rfl, fun h _ => h, fun k h => absurd h (by simp), fun _ _ => rfl⟩
  | cons b bs ih =>
    obtain ⟨hs, hw, hb, ho⟩ := ih (a + 1) (s.setByte a b)
    refine ⟨?_, ?_, ?_, ?_⟩
    · show (s.setByte a b).place (a + 1) bs = _
      rw [hs]; rfl
    · intro h hl
      rw [List.length_cons] at hl
      exact hw (State.setByte_mem_wf h b (by simp [Config.memSize]; omega)) (by omega)
    · intro k hk
      cases k with
      | zero =>
        show ((s.setByte a b).place (a + 1) bs).byteAt (a + 0) = b
        rw [ho (a + 0) (by omega), State.byteAt_setByte]; simp
      | succ k =>
        have := hb k (by simpa using hk)
        simpa [State.place, Nat.add_assoc, Nat.add_comm 1 k] using this
    · intro p hp
      rw [List.length_cons] at hp
      show ((s.setByte a b).place (a + 1) bs).byteAt p = _
      rw [ho p (by omega), State.byteAt_setByte, if_neg (by omega)]

end Sys2Proof.Machine
end

