-- ==== Sys2Proof/Laws/Display.lean ====
section
/-! SUPPORT. Display.lean: what drawing does to the screen and to `VF`, bit by bit, row by row and as a
whole (`44_display.md` R152, R153). -/

namespace Sys2Proof.Machine

/-- Flips under two conditions that exclude each other are one flip under either. -/
theorem xor_decide_of_disjoint {p q : Prop} [Decidable p] [Decidable q] (h : ¬ (p ∧ q)) :
    (decide p ^^ decide q) = decide (p ∨ q) := by
  by_cases hp : p <;> by_cases hq : q <;> simp_all

/-! ### One sprite bit -/

theorem State.pixel_drawBit (s : State) (x0 row : Nat) (b : Byte) (c : Nat) (y : Fin 32)
    (x : Fin 64) : (s.drawBit x0 row b c).pixel y x =
      (s.pixel y x ^^ (decide (y = screenRow row ∧ x = screenCol (x0 + c)) && spriteBit b c)) := by
  unfold State.drawBit State.flipPixel
  cases hb : spriteBit b c with
  | false => simp
  | true =>
    simp only [if_true, State.pixel_setPixel, Bool.and_true]
    by_cases h : y = screenRow row ∧ x = screenCol (x0 + c)
    · obtain ⟨rfl, rfl⟩ := h; simp
    · rw [if_neg h]
      cases s.pixel (screenRow row) (screenCol (x0 + c)) <;> simp [h]

theorem State.getV_drawBit (s : State) (x0 row : Nat) (b : Byte) (c : Nat) (r : Reg) :
    (s.drawBit x0 row b c).getV r =
      if r = vf ∧ spriteBit b c = true ∧ s.pixel (screenRow row) (screenCol (x0 + c)) = true
      then 1#8 else s.getV r := by
  unfold State.drawBit State.flipPixel
  cases hb : spriteBit b c <;> cases hp : s.pixel (screenRow row) (screenCol (x0 + c)) <;>
    simp [State.getV_setFlag, flagByte]

theorem State.drawBit_others (s : State) (x0 row : Nat) (b : Byte) (c : Nat) :
    s.drawBit x0 row b c =
      { s with v := (s.drawBit x0 row b c).v, fb := (s.drawBit x0 row b c).fb } := by
  unfold State.drawBit State.flipPixel
  split
  · dsimp only
    split <;> rfl
  · rfl

/-! ### Columns `0` to `n - 1` of one sprite row -/

/-- The first `n` columns of one sprite row. -/
theorem State.drawCols_spec (s : State) (x0 row : Nat) (b : Byte) (n : Nat) (hn : n ≤ 8) :
    let t := (List.range n).foldl (fun t c => t.drawBit x0 row b c) s
    t = { s with v := t.v, fb := t.fb } ∧
    (∀ y x, t.pixel y x = (s.pixel y x ^^
      decide (∃ c < n, (y = screenRow row ∧ x = screenCol (x0 + c)) ∧ spriteBit b c = true))) ∧
    ∀ r, t.getV r =
      if r = vf ∧ ∃ c < n, spriteBit b c = true ∧
        s.pixel (screenRow row) (screenCol (x0 + c)) = true
      then 1#8 else s.getV r := by
  induction n with
  | zero => simp
  | succ n ih =>
    obtain ⟨h1, h2, h3⟩ := ih (by omega)
    simp only [List.range_succ, List.foldl_append, List.foldl_cons, List.foldl_nil]
    generalize (List.range n).foldl (fun t c => t.drawBit x0 row b c) s = t at h1 h2 h3 ⊢
    -- no column before `n` lies on the pixel of column `n`
    have hd : ∀ c, c < n → screenCol (x0 + n) ≠ screenCol (x0 + c) := by
      intro c hc h
      have := congrArg Fin.val h
      simp only [screenCol] at this
      omega
    refine ⟨?_, fun y x => ?_, fun r => ?_⟩
    · rw [State.drawBit_others, h1]
    · rw [State.pixel_drawBit, h2, Bool.xor_assoc]
      congr 1
      have hx : ¬ ((∃ c < n, (y = screenRow row ∧ x = screenCol (x0 + c)) ∧ spriteBit b c = true) ∧
          (y = screenRow row ∧ x = screenCol (x0 + n)) ∧ spriteBit b n = true) := by
        rintro ⟨⟨c, hc, ⟨-, h⟩, -⟩, ⟨-, h'⟩, -⟩
        exact hd c hc (h'.symm.trans h)
      simp only [Nat.exists_lt_succ_right, ← xor_decide_of_disjoint hx, Bool.decide_and,
        Bool.decide_eq_true]
    · have hp : t.pixel (screenRow row) (screenCol (x0 + n)) =
          s.pixel (screenRow row) (screenCol (x0 + n)) := by
        rw [h2, decide_eq_false, Bool.xor_false]
        rintro ⟨c, hc, ⟨-, h⟩, -⟩
        exact hd c hc h
      rw [State.getV_drawBit, h3, hp]
      simp only [Nat.exists_lt_succ_right, and_or_left, ite_or]
      split <;> split <;> rfl

/-! ### A whole sprite row -/

/-- Sprite row `r`, with the memory and index of `s`, has a set bit for the pixel. -/
def State.spriteOn (s : State) (x0 y0 r : Nat) (y : Fin 32) (x : Fin 64) : Prop :=
  ∃ c < 8, (y = screenRow (y0 + r) ∧ x = screenCol (x0 + c)) ∧
    spriteBit (s.byteAt (s.addr r)) c = true

theorem State.spriteOn_row {s : State} {x0 y0 r : Nat} {y : Fin 32} {x : Fin 64}
    (h : s.spriteOn x0 y0 r y x) : y.val = (y0 + r) % 32 := by
  obtain ⟨c, -, ⟨rfl, -⟩, -⟩ := h
  rfl

open Classical in
/-- One sprite row: the pixels under its set bits are flipped, and `VF` becomes 1 if one of them was
on. -/
theorem State.drawRow_spec (s : State) (x0 y0 r : Nat) :
    let t := s.drawRow x0 (y0 + r) (s.byteAt (s.addr r))
    t = { s with v := t.v, fb := t.fb } ∧
    (∀ y x, t.pixel y x = (s.pixel y x ^^ decide (s.spriteOn x0 y0 r y x))) ∧
    ∀ q, t.getV q =
      if q = vf ∧ ∃ y x, s.spriteOn x0 y0 r y x ∧ s.pixel y x = true then 1#8 else s.getV q := by
  obtain ⟨h1, h2, h3⟩ := s.drawCols_spec x0 (y0 + r) (s.byteAt (s.addr r)) 8 (by omega)
  refine ⟨h1, fun y x => (h2 y x).trans ?_, fun q => (h3 q).trans ?_⟩
  · congr 1
    exact decide_eq_decide.mpr Iff.rfl
  congr 1
  refine propext (and_congr_right fun _ => ⟨?_, ?_⟩)
  · rintro ⟨c, hc, hb, hp⟩
    exact ⟨_, _, ⟨c, hc, ⟨rfl, rfl⟩, hb⟩, hp⟩
  · rintro ⟨y, x, ⟨c, hc, ⟨rfl, rfl⟩, hb⟩, hp⟩
    exact ⟨c, hc, hb, hp⟩

/-! ### A run of sprite rows -/

/-- One of the sprite rows `r` to `r + n - 1` whose byte lies in the address space has a set bit for
the pixel. -/
def State.spriteRowsOn (s : State) (x0 y0 r n : Nat) (y : Fin 32) (x : Fin 64) : Prop :=
  ∃ q, r ≤ q ∧ q < r + n ∧ s.addr q < 4096 ∧ s.spriteOn x0 y0 q y x

theorem State.spriteRowsOn_succ {s : State} {x0 y0 r n : Nat} (h : s.addr r < 4096) (y : Fin 32)
    (x : Fin 64) : s.spriteRowsOn x0 y0 r (n + 1) y x ↔
      s.spriteOn x0 y0 r y x ∨ s.spriteRowsOn x0 y0 (r + 1) n y x := by
  constructor
  · rintro ⟨q, h1, h2, h3⟩
    rcases Nat.eq_or_lt_of_le h1 with rfl | h1
    · exact .inl h3.2
    · exact .inr ⟨q, h1, by omega, h3⟩
  · rintro (h' | ⟨q, h1, h2, h3⟩)
    · exact ⟨r, le_rfl, by omega, h, h'⟩
    · exact ⟨q, by omega, by omega, h3⟩

open Classical in
/-- What `drawRows` does: the pixels under the set bits of the rows it can read are flipped, `VF`
becomes 1 if one of them was on, everything else is as before, and it faults at the first address
outside, if there is one. -/
theorem drawRows_spec (x0 y0 r n : Nat) (hn : n ≤ 32) (s : State) :
    ∃ t, drawRows x0 y0 r n s =
        (if n = 0 ∨ s.addr r + n ≤ 4096 then .next t
         else .fault (.addressOutOfRange (max (s.addr r) 4096) t)) ∧
      t = { s with v := t.v, fb := t.fb } ∧
      (∀ y x, t.pixel y x = (s.pixel y x ^^ decide (s.spriteRowsOn x0 y0 r n y x))) ∧
      ∀ q, t.getV q =
        if q = vf ∧ ∃ y x, s.spriteRowsOn x0 y0 r n y x ∧ s.pixel y x = true then 1#8
        else s.getV q := by
  induction n generalizing r s with
  | zero =>
    have h0 : ∀ y x, ¬ s.spriteRowsOn x0 y0 r 0 y x := by
      rintro y x ⟨q, h1, h2, -⟩
      omega
    exact ⟨s, by simp [drawRows], rfl, by simp [h0], by simp [h0]⟩
  | succ n ih =>
    rcases Nat.lt_or_ge (s.addr r) 4096 with ha | ha
    · obtain ⟨d1, d2, d3⟩ := s.drawRow_spec x0 y0 r
      obtain ⟨t, t1, t2, t3, t4⟩ := ih (r + 1) (by omega) (s.drawRow x0 (y0 + r) (s.byteAt (s.addr r)))
      generalize hu : s.drawRow x0 (y0 + r) (s.byteAt (s.addr r)) = u at d1 d2 d3 t1 t2 t3 t4
      have hon : ∀ y x, u.spriteRowsOn x0 y0 (r + 1) n y x ↔ s.spriteRowsOn x0 y0 (r + 1) n y x := by
        intro y x; rw [d1]; exact Iff.rfl
      have hdis : ∀ y x, ¬ (s.spriteOn x0 y0 r y x ∧ s.spriteRowsOn x0 y0 (r + 1) n y x) := by
        rintro y x ⟨h, q, h1, h2, -, h'⟩
        have := State.spriteOn_row h
        have := State.spriteOn_row h'
        omega
      have hu_addr : ∀ k, u.addr k = s.addr k := by intro k; rw [d1]; rfl
      refine ⟨t, ?_, ?_, fun y x => ?_, fun q => ?_⟩
      · rw [drawRows, memRead_of_lt ha, hu, t1, hu_addr]
        have e1 : s.addr (r + 1) = s.addr r + 1 := by simp only [State.addr]; omega
        by_cases h0 : n = 0
        · subst h0; rw [if_pos (.inl rfl), if_pos (by omega)]
        · have e2 : max (s.addr r + 1) 4096 = max (s.addr r) 4096 := by omega
          have e3 : s.addr r + (n + 1) = s.addr r + 1 + n := by omega
          simp [h0, e1, e2, e3]
      · rw [t2, d1]
      · rw [t3, d2, Bool.xor_assoc]
        congr 1
        simp only [hon, State.spriteRowsOn_succ ha]
        exact xor_decide_of_disjoint (hdis y x)
      · have hp : ∀ y x, s.spriteRowsOn x0 y0 (r + 1) n y x → u.pixel y x = s.pixel y x := by
          intro y x h
          rw [d2, decide_eq_false fun h' => hdis y x ⟨h', h⟩, Bool.xor_false]
        have e : (∃ y x, s.spriteRowsOn x0 y0 r (n + 1) y x ∧ s.pixel y x = true) ↔
            (∃ y x, s.spriteRowsOn x0 y0 (r + 1) n y x ∧ u.pixel y x = true) ∨
            ∃ y x, s.spriteOn x0 y0 r y x ∧ s.pixel y x = true := by
          simp only [State.spriteRowsOn_succ ha, or_and_right, exists_or, or_comm]
          refine or_congr_right ?_
          exact exists_congr fun y => exists_congr fun x => and_congr_right fun h => by rw [hp y x h]
        simp only [t4, hon, d3, e, and_or_left, ite_or]
    · have h0 : ∀ y x, ¬ s.spriteRowsOn x0 y0 r (n + 1) y x := by
        rintro y x ⟨q, h1, h2, h3, -⟩
        simp only [State.addr] at ha h3
        omega
      refine ⟨s, ?_, rfl, by simp [h0], by simp [h0]⟩
      have : ¬ s.addr r + (n + 1) ≤ 4096 := by omega
      simp [drawRows, memRead_of_ge ha, this, Nat.max_eq_left ha]

end Sys2Proof.Machine
end

