-- ==== Sys2Proof/Laws/Frames.lean ====
section
/-! SUPPORT. Frames.lean: the frame of every named update, in the terms of Safety.lean, and how frames
compose; cited instead of going through the parts of the state again. -/

namespace Sys2Proof.Machine

/-! ### Composition -/

theorem keeps_refl (s : State) (p : Part) : keeps s s p := by
  cases p <;> first | rfl | exact fun _ => rfl | exact fun _ _ => rfl | exact ⟨rfl, fun _ => rfl⟩ |
    exact ⟨rfl, rfl⟩

theorem keeps_trans {s t u : State} {p : Part} (h : keeps s t p) (h' : keeps t u p) :
    keeps s u p := by
  cases p with
  | regs => exact fun r => (h' r).trans (h r)
  | index => exact Eq.trans h' h
  | pc => exact Eq.trans h' h
  | stack => exact ⟨h'.1.trans h.1, fun k => (h'.2 k).trans (h.2 k)⟩
  | delay => exact Eq.trans h' h
  | sound => exact Eq.trans h' h
  | screen => exact fun y x => (h' y x).trans (h y x)
  | mode => exact Eq.trans h' h
  | memory => exact fun a => (h' a).trans (h a)
  | inputs => exact ⟨h'.1.trans h.1, h'.2.trans h.2⟩
  | params => exact Eq.trans h' h

theorem keeps_symm {s t : State} {p : Part} (h : keeps s t p) : keeps t s p := by
  cases p with
  | regs => exact fun r => (h r).symm
  | index => exact Eq.symm h
  | pc => exact Eq.symm h
  | stack => exact ⟨h.1.symm, fun k => (h.2 k).symm⟩
  | delay => exact Eq.symm h
  | sound => exact Eq.symm h
  | screen => exact fun y x => (h y x).symm
  | mode => exact Eq.symm h
  | memory => exact fun a => (h a).symm
  | inputs => exact ⟨h.1.symm, h.2.symm⟩
  | params => exact Eq.symm h

theorem changesOnly_refl (ps : List Part) (s : State) : changesOnly ps s s :=
  fun p _ => keeps_refl s p

theorem changesOnly.mono {ps qs : List Part} {s t : State} (h : changesOnly ps s t)
    (hs : ∀ p, p ∈ ps → p ∈ qs) : changesOnly qs s t := fun p hp => h p fun h' => hp (hs p h')

theorem changesOnly.trans {ps qs : List Part} {s t u : State} (h : changesOnly ps s t)
    (h' : changesOnly qs t u) : changesOnly (ps ++ qs) s u := fun p hp =>
  keeps_trans (h p fun m => hp (List.mem_append_left qs m))
    (h' p fun m => hp (List.mem_append_right ps m))

/-! ### States that agree in all but some fields -/

theorem changesOnly_v (s : State) (w : Vector Byte 16) :
    changesOnly [.regs] s { s with v := w } := by
  intro p hp
  cases p <;> first | exact absurd (by decide) hp | rfl | exact fun _ => rfl |
    exact fun _ _ => rfl | exact ⟨rfl, fun _ => rfl⟩ | exact ⟨rfl, rfl⟩

theorem changesOnly_vFb (s : State) (w : Vector Byte 16) (g : Vector (Vector Bool 64) 32) :
    changesOnly [.regs, .screen] s { s with v := w, fb := g } := by
  intro p hp
  cases p <;> first | exact absurd (by decide) hp | rfl | exact fun _ => rfl |
    exact fun _ _ => rfl | exact ⟨rfl, fun _ => rfl⟩ | exact ⟨rfl, rfl⟩

theorem changesOnly_i (s : State) (w : Word) :
    changesOnly [.index] s { s with i := w } := by
  intro p hp
  cases p <;> first | exact absurd (by decide) hp | rfl | exact fun _ => rfl |
    exact fun _ _ => rfl | exact ⟨rfl, fun _ => rfl⟩ | exact ⟨rfl, rfl⟩

theorem changesOnly_pc (s : State) (w : Word) :
    changesOnly [.pc] s { s with pc := w } := by
  intro p hp
  cases p <;> first | exact absurd (by decide) hp | rfl | exact fun _ => rfl |
    exact fun _ _ => rfl | exact ⟨rfl, fun _ => rfl⟩ | exact ⟨rfl, rfl⟩

theorem changesOnly_stack (s : State) (k : Vector Word 16) (n : Fin 17) :
    changesOnly [.stack] s { s with stack := k, sp := n } := by
  intro p hp
  cases p <;> first | exact absurd (by decide) hp | rfl | exact fun _ => rfl |
    exact fun _ _ => rfl | exact ⟨rfl, fun _ => rfl⟩ | exact ⟨rfl, rfl⟩

theorem changesOnly_dt (s : State) (b : Byte) :
    changesOnly [.delay] s { s with dt := b } := by
  intro p hp
  cases p <;> first | exact absurd (by decide) hp | rfl | exact fun _ => rfl |
    exact fun _ _ => rfl | exact ⟨rfl, fun _ => rfl⟩ | exact ⟨rfl, rfl⟩

theorem changesOnly_st (s : State) (b : Byte) :
    changesOnly [.sound] s { s with st := b } := by
  intro p hp
  cases p <;> first | exact absurd (by decide) hp | rfl | exact fun _ => rfl |
    exact fun _ _ => rfl | exact ⟨rfl, fun _ => rfl⟩ | exact ⟨rfl, rfl⟩

theorem changesOnly_timers (s : State) (b c : Byte) :
    changesOnly [.delay, .sound] s { s with dt := b, st := c } := by
  intro p hp
  cases p <;> first | exact absurd (by decide) hp | rfl | exact fun _ => rfl |
    exact fun _ _ => rfl | exact ⟨rfl, fun _ => rfl⟩ | exact ⟨rfl, rfl⟩

theorem changesOnly_fb (s : State) (g : Vector (Vector Bool 64) 32) :
    changesOnly [.screen] s { s with fb := g } := by
  intro p hp
  cases p <;> first | exact absurd (by decide) hp | rfl | exact fun _ => rfl |
    exact fun _ _ => rfl | exact ⟨rfl, fun _ => rfl⟩ | exact ⟨rfl, rfl⟩

theorem changesOnly_mode (s : State) (m : Mode) :
    changesOnly [.mode] s { s with mode := m } := by
  intro p hp
  cases p <;> first | exact absurd (by decide) hp | rfl | exact fun _ => rfl |
    exact fun _ _ => rfl | exact ⟨rfl, fun _ => rfl⟩ | exact ⟨rfl, rfl⟩

theorem changesOnly_mem (s : State) (m : Memory) :
    changesOnly [.memory] s { s with mem := m } := by
  intro p hp
  cases p <;> first | exact absurd (by decide) hp | rfl | exact fun _ => rfl |
    exact fun _ _ => rfl | exact ⟨rfl, fun _ => rfl⟩ | exact ⟨rfl, rfl⟩

theorem changesOnly_inputs (s : State) (l : List Sample) (n : Nat) :
    changesOnly [.inputs] s { s with inputs := l, inputNo := n } := by
  intro p hp
  cases p <;> first | exact absurd (by decide) hp | rfl | exact fun _ => rfl |
    exact fun _ _ => rfl | exact ⟨rfl, fun _ => rfl⟩

/-! ### The named updates -/

theorem changesOnlyRegs_setV (s : State) (x : Reg) (b : Byte) :
    changesOnlyRegs [x] s (s.setV x b) :=
  ⟨changesOnly_v s _, fun r hr => State.getV_setV_of_ne s (by simpa using hr) b⟩

theorem changesOnlyRegs_resultThenFlag (s : State) (x : Reg) (b : Byte) (c : Bool) :
    changesOnlyRegs [x, 0xF#4] s (s.resultThenFlag x b c) :=
  ⟨changesOnly_v s _, fun r hr => by
    simp only [List.mem_cons, List.not_mem_nil, or_false, not_or] at hr
    simp [State.getV_resultThenFlag, vf, hr.1, hr.2]⟩

theorem changesOnlyRegs_flagThenResult (s : State) (x : Reg) (b : Byte) (c : Bool) :
    changesOnlyRegs [x, 0xF#4] s (s.flagThenResult x b c) :=
  ⟨changesOnly_v s _, fun r hr => by
    simp only [List.mem_cons, List.not_mem_nil, or_false, not_or] at hr
    simp [State.getV_flagThenResult, vf, hr.1, hr.2]⟩

theorem changesOnly_setPc (s : State) (w : Word) : changesOnly [.pc] s (s.setPc w) :=
  changesOnly_pc s w

theorem changesOnly_advance (s : State) : changesOnly [.pc] s s.advance := changesOnly_pc s _

theorem changesOnly_skipIf (s : State) (c : Bool) : changesOnly [.pc] s (s.skipIf c) :=
  changesOnly_pc s _

theorem changesOnly_setI (s : State) (w : Word) : changesOnly [.index] s (s.setI w) :=
  changesOnly_i s w

theorem changesOnly_clearScreen (s : State) : changesOnly [.screen] s s.clearScreen :=
  changesOnly_fb s _

theorem changesOnly_tick (s : State) : changesOnly [.delay, .sound] s s.tick :=
  changesOnly_timers s _ _

theorem changesOnly_endStep (s : State) : changesOnly [.delay, .sound, .inputs] s s.endStep :=
  (changesOnly_tick s).trans (changesOnly_inputs s.tick _ _)

theorem changesOnly_place (s : State) (a : Nat) (bs : List Byte) :
    changesOnly [.memory] s (s.place a bs) := by
  rw [(State.place_spec bs a s).1]
  exact changesOnly_mem s _

/-! ### From the specs of the shared operations -/

theorem changesOnly_of_mem {s t : State} (h : t = { s with mem := t.mem }) :
    changesOnly [.memory] s t := by
  rw [h]; exact changesOnly_mem s _

theorem changesOnly_of_v {s t : State} (h : t = { s with v := t.v }) : changesOnly [.regs] s t := by
  rw [h]; exact changesOnly_v s _

theorem changesOnly_of_vFb {s t : State} (h : t = { s with v := t.v, fb := t.fb }) :
    changesOnly [.regs, .screen] s t := by
  rw [h]; exact changesOnly_vFb s _ _

/-- What a key wait may change, whatever `KEYWAIT_EXTRA_TICK` (`45_keypad_timers_random.md` R168). -/
theorem changesOnly_keyWaitWith (e : Config.KeyWaitExtraTick) (x : Reg) (s : State) :
    changesOnly [.regs, .mode, .delay, .sound] s (keyWaitWith e x s) ∧
      ∀ r, r ≠ x → (keyWaitWith e x s).getV r = s.getV r := by
  have hm (m : Mode) : changesOnly [.regs, .mode, .delay, .sound] s (s.setMode m) :=
    (changesOnly_mode s m).mono (by simp)
  have hv (b : Byte) (m : Mode) :
      changesOnly [.regs, .mode, .delay, .sound] s ((s.setV x b).setMode m) :=
    ((changesOnly_v s _).trans (changesOnly_mode _ m)).mono (by simp)
  have ht {t : State} (h : changesOnly [.regs, .mode, .delay, .sound] s t) :
      changesOnly [.regs, .mode, .delay, .sound] s t.tick :=
    (h.trans (changesOnly_tick t)).mono (by simp)
  by_cases hk : s.keys = 0#16
  · rw [keyWaitWith_of_none _ _ hk]
    split
    · exact ⟨hm _, fun r _ => by simp⟩
    · exact ⟨ht (hm _), fun r _ => by simp⟩
  · obtain ⟨k, -, -, h⟩ := keyWaitWith_of_some e x hk
    rw [h]
    split
    · exact ⟨ht (hv _ _), fun r hr => by simp [State.getV_setV, hr]⟩
    · exact ⟨hv _ _, fun r hr => by simp [State.getV_setV, hr]⟩

/-- What a key wait may change under the machine's own parameter. -/
theorem changesOnly_keyWait (x : Reg) (s : State) :
    changesOnly [.regs, .mode, .delay, .sound] s (keyWait x s) ∧
      ∀ r, r ≠ x → (keyWait x s).getV r = s.getV r := changesOnly_keyWaitWith _ x s

/-- A key wait takes `extraTicks` from each timer. -/
theorem keyWait_timers (x : Reg) (s : State) :
    (keyWait x s).dt.toNat = s.dt.toNat - s.extraTicks ∧
      (keyWait x s).st.toNat = s.st.toNat - s.extraTicks := by
  unfold keyWait State.extraTicks
  by_cases hk : s.keys = 0#16
  · rw [keyWaitWith_of_none _ _ hk]
    cases s.params.keyWaitExtraTick <;> simp [hk, countDown_toNat]
  · obtain ⟨k, -, -, h⟩ := keyWaitWith_of_some s.params.keyWaitExtraTick x hk
    rw [h]
    cases s.params.keyWaitExtraTick <;> simp [hk, countDown_toNat]

end Sys2Proof.Machine
end

