-- ==== Sys2Proof/Laws/Inputs.lean ====
section
/-! SUPPORT. Inputs.lean: the shared operations that never look at the driver's samples commute with
changing them; the key wait does where the keys are the same. -/

namespace Sys2Proof.Machine

theorem storeBytes_withInputs (bs : List Byte) (a : Nat) (s : State) (l : List Sample) (n : Nat) :
    storeBytes a bs (s.withInputs l n) =
      mapState (fun t => t.withInputs l n) (storeBytes a bs s) := by
  induction bs generalizing a s with
  | nil => rfl
  | cons b bs ih =>
    rcases Nat.lt_or_ge a 4096 with h | h
    · simp only [storeBytes, memWrite_of_lt h, andThen_next]
      exact ih (a + 1) (s.setByte a b)
    · simp only [storeBytes, memWrite_of_ge h, andThen_fault]; rfl

theorem loadRegs_withInputs (rs : List Reg) (a : Nat) (s : State) (l : List Sample) (n : Nat) :
    loadRegs a rs (s.withInputs l n) =
      mapState (fun t => t.withInputs l n) (loadRegs a rs s) := by
  induction rs generalizing a s with
  | nil => rfl
  | cons r rs ih =>
    rcases Nat.lt_or_ge a 4096 with h | h
    · simp only [loadRegs, memRead_of_lt h]
      exact ih (a + 1) (s.setV r (s.byteAt a))
    · simp only [loadRegs, memRead_of_ge h]; rfl

theorem State.drawBit_withInputs (s : State) (l : List Sample) (n x0 row : Nat) (b : Byte) (c : Nat) :
    (s.withInputs l n).drawBit x0 row b c = (s.drawBit x0 row b c).withInputs l n := by
  simp only [State.drawBit, State.flipPixel,
    show ∀ y x, (s.withInputs l n).pixel y x = s.pixel y x from fun _ _ => rfl]
  split
  · split <;> rfl
  · rfl

theorem State.drawRow_withInputs (s : State) (l : List Sample) (n x0 row : Nat) (b : Byte) :
    (s.withInputs l n).drawRow x0 row b = (s.drawRow x0 row b).withInputs l n := by
  simp only [State.drawRow]
  generalize List.range 8 = cs
  induction cs generalizing s with
  | nil => rfl
  | cons c cs ih => simp only [List.foldl_cons, State.drawBit_withInputs, ih]

theorem drawRows_withInputs (x0 y0 r m : Nat) (s : State) (l : List Sample) (n : Nat) :
    drawRows x0 y0 r m (s.withInputs l n) =
      mapState (fun t => t.withInputs l n) (drawRows x0 y0 r m s) := by
  induction m generalizing r s with
  | zero => rfl
  | succ m ih =>
    have e : (s.withInputs l n).addr r = s.addr r := rfl
    have e' : (s.withInputs l n).byteAt (s.addr r) = s.byteAt (s.addr r) := rfl
    rcases Nat.lt_or_ge (s.addr r) 4096 with h | h
    · simp only [drawRows, e, memRead_of_lt h, e', State.drawRow_withInputs, ih]
    · simp only [drawRows, e, memRead_of_ge h]; rfl

theorem keyWait_withInputs (x : Reg) (s : State) (l : List Sample) (n : Nat)
    (h : (s.withInputs l n).keys = s.keys) :
    keyWait x (s.withInputs l n) = (keyWait x s).withInputs l n := by
  simp only [keyWait, keyWaitWith, h, show (s.withInputs l n).params = s.params from rfl]
  cases lowestKey s.keys <;> simp only <;> split <;> rfl

end Sys2Proof.Machine
end

