-- ==== Sys2Proof/Laws/PerInstr.lean ====
section
/-! SUPPORT. PerInstr.lean: statements made per instruction. `TableRow`: the canonical word of an
instruction lies in its row of the opcode map (`30_encoding.md` R79). -/

namespace Sys2Proof.Laws.TableRow

/-- The encoder's word meets the row's mask and match (`30_encoding.md` R79). -/
def Statement (i : Instr) : Prop := encode i &&& tableMask i = tableMatch i

/-! ### What the masks of R79 keep of a word in each format -/

theorem formatNnn_primary (c : Nibble) (nnn : Addr12) :
    formatNnn c nnn &&& 0xF000#16 = formatNnn c 0#12 := by
  refine BitVec.eq_of_getLsbD_eq fun k hk => ?_
  simp only [BitVec.getLsbD_and, getLsbD_formatNnn]
  interval_cases k <;> simp

theorem formatXkk_primary (c x : Nibble) (kk : Byte) :
    formatXkk c x kk &&& 0xF000#16 = formatNnn c 0#12 := by
  refine BitVec.eq_of_getLsbD_eq fun k hk => ?_
  simp only [BitVec.getLsbD_and, getLsbD_formatXkk, getLsbD_formatNnn]
  interval_cases k <;> simp

theorem formatXyn_primary (c x y n : Nibble) :
    formatXyn c x y n &&& 0xF000#16 = formatNnn c 0#12 := by
  refine BitVec.eq_of_getLsbD_eq fun k hk => ?_
  simp only [BitVec.getLsbD_and, getLsbD_formatXyn, getLsbD_formatNnn]
  interval_cases k <;> simp

theorem formatXkk_lowByte (c x : Nibble) (kk : Byte) :
    formatXkk c x kk &&& 0xF0FF#16 = formatXkk c 0#4 kk := by
  refine BitVec.eq_of_getLsbD_eq fun k hk => ?_
  simp only [BitVec.getLsbD_and, getLsbD_formatXkk]
  interval_cases k <;> simp

theorem formatXyn_lowNibble (c x y n : Nibble) :
    formatXyn c x y n &&& 0xF00F#16 = formatXyn c 0#4 0#4 n := by
  refine BitVec.eq_of_getLsbD_eq fun k hk => ?_
  simp only [BitVec.getLsbD_and, getLsbD_formatXyn]
  interval_cases k <;> simp

/-! ### One lemma per instruction -/

theorem sys (nnn : Addr12) : Statement (.sys nnn) :=
  (formatNnn_primary _ _).trans rfl

theorem cls : Statement .cls :=
  (formatXkk_lowByte _ _ _).trans rfl

theorem ret : Statement .ret :=
  (formatXkk_lowByte _ _ _).trans rfl

theorem jp (nnn : Addr12) : Statement (.jp nnn) :=
  (formatNnn_primary _ _).trans rfl

theorem call (nnn : Addr12) : Statement (.call nnn) :=
  (formatNnn_primary _ _).trans rfl

theorem seVxKk (x : Reg) (kk : Byte) : Statement (.seVxKk x kk) :=
  (formatXkk_primary _ _ _).trans rfl

theorem sneVxKk (x : Reg) (kk : Byte) : Statement (.sneVxKk x kk) :=
  (formatXkk_primary _ _ _).trans rfl

theorem seVxVy (x : Reg) (y : Reg) : Statement (.seVxVy x y) :=
  (formatXyn_primary _ _ _ _).trans rfl

theorem ldVxKk (x : Reg) (kk : Byte) : Statement (.ldVxKk x kk) :=
  (formatXkk_primary _ _ _).trans rfl

theorem addVxKk (x : Reg) (kk : Byte) : Statement (.addVxKk x kk) :=
  (formatXkk_primary _ _ _).trans rfl

theorem ldVxVy (x : Reg) (y : Reg) : Statement (.ldVxVy x y) :=
  (formatXyn_lowNibble _ _ _ _).trans rfl

theorem orVxVy (x : Reg) (y : Reg) : Statement (.orVxVy x y) :=
  (formatXyn_lowNibble _ _ _ _).trans rfl

theorem andVxVy (x : Reg) (y : Reg) : Statement (.andVxVy x y) :=
  (formatXyn_lowNibble _ _ _ _).trans rfl

theorem xorVxVy (x : Reg) (y : Reg) : Statement (.xorVxVy x y) :=
  (formatXyn_lowNibble _ _ _ _).trans rfl

theorem addVxVy (x : Reg) (y : Reg) : Statement (.addVxVy x y) :=
  (formatXyn_lowNibble _ _ _ _).trans rfl

theorem subVxVy (x : Reg) (y : Reg) : Statement (.subVxVy x y) :=
  (formatXyn_lowNibble _ _ _ _).trans rfl

theorem shrVx (x : Reg) : Statement (.shrVx x) :=
  (formatXyn_lowNibble _ _ _ _).trans rfl

theorem subnVxVy (x : Reg) (y : Reg) : Statement (.subnVxVy x y) :=
  (formatXyn_lowNibble _ _ _ _).trans rfl

theorem shlVx (x : Reg) : Statement (.shlVx x) :=
  (formatXyn_lowNibble _ _ _ _).trans rfl

theorem sneVxVy (x : Reg) (y : Reg) : Statement (.sneVxVy x y) :=
  (formatXyn_primary _ _ _ _).trans rfl

theorem ldINnn (nnn : Addr12) : Statement (.ldINnn nnn) :=
  (formatNnn_primary _ _).trans rfl

theorem jpV0Nnn (nnn : Addr12) : Statement (.jpV0Nnn nnn) :=
  (formatNnn_primary _ _).trans rfl

theorem rndVxKk (x : Reg) (kk : Byte) : Statement (.rndVxKk x kk) :=
  (formatXkk_primary _ _ _).trans rfl

theorem drwVxVyN (x : Reg) (y : Reg) (n : Nibble) : Statement (.drwVxVyN x y n) :=
  (formatXyn_primary _ _ _ _).trans rfl

theorem skpVx (x : Reg) : Statement (.skpVx x) :=
  (formatXkk_lowByte _ _ _).trans rfl

theorem sknpVx (x : Reg) : Statement (.sknpVx x) :=
  (formatXkk_lowByte _ _ _).trans rfl

theorem ldVxDt (x : Reg) : Statement (.ldVxDt x) :=
  (formatXkk_lowByte _ _ _).trans rfl

theorem ldVxK (x : Reg) : Statement (.ldVxK x) :=
  (formatXkk_lowByte _ _ _).trans rfl

theorem ldDtVx (x : Reg) : Statement (.ldDtVx x) :=
  (formatXkk_lowByte _ _ _).trans rfl

theorem ldStVx (x : Reg) : Statement (.ldStVx x) :=
  (formatXkk_lowByte _ _ _).trans rfl

theorem addIVx (x : Reg) : Statement (.addIVx x) :=
  (formatXkk_lowByte _ _ _).trans rfl

theorem ldFVx (x : Reg) : Statement (.ldFVx x) :=
  (formatXkk_lowByte _ _ _).trans rfl

theorem ldBVx (x : Reg) : Statement (.ldBVx x) :=
  (formatXkk_lowByte _ _ _).trans rfl

theorem ldMemVx (x : Reg) : Statement (.ldMemVx x) :=
  (formatXkk_lowByte _ _ _).trans rfl

theorem ldVxMem (x : Reg) : Statement (.ldVxMem x) :=
  (formatXkk_lowByte _ _ _).trans rfl

end Sys2Proof.Laws.TableRow
end

