-- ==== Sys2Proof/Laws/Step.lean ====
section
/-! SUPPORT. Step.lean: what a step can do, once: its cases forwards (from the state) and backwards (from
its answer), so that no proof about steps unfolds the step. -/

namespace Sys2Proof.Machine

/-- The step of a word that decodes (`40_engine_step.md` R90). -/
theorem step_of_decode {s : State} {i : Instr} (hm : s.mode = .running)
    (hp : s.pc.toNat + 1 < 4096) (hd : decode (s.wordAt s.pc.toNat) = .ok i) :
    step s = finish (exec i s.advance) := by
  have hd' : decode (s.byteAt s.pc.toNat ++ s.byteAt (s.pc.toNat + 1)) = .ok i := hd
  simp only [step, hm, fetch_of_lt hp, hd']

/-- The step of a word that does not decode (`40_engine_step.md` R92). -/
theorem step_of_illegal {s : State} {e : DecodeError} (hm : s.mode = .running)
    (hp : s.pc.toNat + 1 < 4096) (hd : decode (s.wordAt s.pc.toNat) = .error e) :
    step s = .fault (.invalidOpcode (s.wordAt s.pc.toNat) s.advance) := by
  have hd' : decode (s.byteAt s.pc.toNat ++ s.byteAt (s.pc.toNat + 1)) = .error e := hd
  simp only [step, hm, fetch_of_lt hp, hd']
  rfl

/-- The step of a `pc` whose word does not lie in memory (`40_engine_step.md` R91). -/
theorem step_of_fetch_fault {s : State} (hm : s.mode = .running) (h : 4095 ≤ s.pc.toNat) :
    step s = .fault (.addressOutOfRange (max s.pc.toNat 4096) s) := by
  rcases Nat.lt_or_ge s.pc.toNat 4096 with h' | h'
  · have : s.pc.toNat = 4095 := by omega
    simp [step, hm, fetch_of_last this, this]
  · simp [step, hm, fetch_of_ge h', Nat.max_eq_left h']

/-- The step of a waiting engine (`40_engine_step.md` R95). -/
theorem step_of_waiting {s : State} {x : Reg} (hm : s.mode = .awaitingKey x) :
    step s = .next (keyWait x s).endStep := by
  simp only [step, hm, finish_next]

/-- Every way a step completes. -/
theorem step_eq_next {s t : State} (h : step s = .next t) :
    (∃ i u, s.mode = .running ∧ s.pc.toNat + 1 < 4096 ∧ decode (s.wordAt s.pc.toNat) = .ok i ∧
      exec i s.advance = .next u ∧ t = u.endStep) ∨
    ∃ x, s.mode = .awaitingKey x ∧ t = (keyWait x s).endStep := by
  cases hm : s.mode with
  | awaitingKey x =>
    rw [step_of_waiting hm] at h
    exact .inr ⟨x, rfl, by simpa using h.symm⟩
  | running =>
    rcases Nat.lt_or_ge (s.pc.toNat + 1) 4096 with hp | hp
    · cases hd : decode (s.wordAt s.pc.toNat) with
      | ok i =>
        rw [step_of_decode hm hp hd] at h
        obtain ⟨u, hu, rfl⟩ := finish_eq_next h
        exact .inl ⟨i, u, rfl, hp, rfl, hu, rfl⟩
      | error e => rw [step_of_illegal hm hp hd] at h; cases h
    · rw [step_of_fetch_fault hm (by omega)] at h; cases h

/-- Every way a step faults. -/
theorem step_eq_fault {s : State} {f : Fault} (h : step s = .fault f) : s.mode = .running ∧
    ((4095 ≤ s.pc.toNat ∧ f = .addressOutOfRange (max s.pc.toNat 4096) s) ∨
      (∃ e, s.pc.toNat + 1 < 4096 ∧ decode (s.wordAt s.pc.toNat) = .error e ∧
        f = .invalidOpcode (s.wordAt s.pc.toNat) s.advance) ∨
      ∃ i, s.pc.toNat + 1 < 4096 ∧ decode (s.wordAt s.pc.toNat) = .ok i ∧
        exec i s.advance = .fault f) := by
  cases hm : s.mode with
  | awaitingKey x => rw [step_of_waiting hm] at h; cases h
  | running =>
    refine ⟨rfl, ?_⟩
    rcases Nat.lt_or_ge (s.pc.toNat + 1) 4096 with hp | hp
    · cases hd : decode (s.wordAt s.pc.toNat) with
      | ok i =>
        rw [step_of_decode hm hp hd] at h
        exact .inr (.inr ⟨i, hp, rfl, finish_eq_fault h⟩)
      | error e =>
        rw [step_of_illegal hm hp hd] at h
        exact .inr (.inl ⟨e, hp, rfl, by simpa using h.symm⟩)
    · rw [step_of_fetch_fault hm (by omega)] at h
      exact .inl ⟨by omega, by simpa using h.symm⟩

end Sys2Proof.Machine
end

