-- ==== Sys2Proof/Tests/Slice0.lean ====
section
/-! SUPPORT. Slice0.lean: ill-formed terms refused, words written out from `30_encoding.md` R79, single
steps from `95_test_vectors.md` (the vector's id stands beside each), and a witness for the hypotheses
of every statement that has some. -/

namespace Sys2Proof.Tests

open Sys2Proof Sys2Proof.Machine

/-! ### Helpers -/

/-- Reset, with one word where the first step fetches (the conventions of `95_test_vectors.md`). -/
def machine (op : Word) : State := State.reset.place 0x200 (wordBytes op)

/-- What a completed step left. -/
def after (s : State) : Option State :=
  match step s with
  | .next t => some t
  | .fault _ => none
  | .refused _ => none

/-- What a faulting step left, with the fault's code. -/
def failed (s : State) : Option (Option Nat × Option State) :=
  match step s with
  | .next _ => none
  | .fault f => some (f.code, f.left)
  | .refused _ => none

/-- The state with `n` stack entries in use. -/
def withSp (s : State) (n : Fin 17) : State := { s with sp := n }

/-- The state with the coming step's inputs given. -/
def withSample (s : State) (keys : Word) (rnd : Byte) : State :=
  { s with inputs := [{ keys := keys, rnd := rnd }] }

/-- A choice of the parameters of `00_scope.md` R5. -/
def withParams (programStart : Fin 514) (fontStart : Fin 434) (extra : Config.KeyWaitExtraTick) :
    Config.Params :=
  { programStart := programStart, fontStart := fontStart, keyWaitExtraTick := extra }

/-! ### Ill-formed terms (`30_encoding.md` R74) -/

theorem test_wf_refuses_sys_E0 : (Instr.sys 0x0E0#12).wf = false := by decide
theorem test_wf_refuses_sys_EE : (Instr.sys 0x3EE#12).wf = false := by decide
theorem test_wf_accepts_sys_E1 : (Instr.sys 0x0E1#12).wf = true := by decide

/-! ### Decoding: words written out from R79, field by field -/

/-- The words of the opcode map's rows 1 to 10, 20 and 22 to 24 (primary code, then the fields). -/
theorem test_decode_primary :
    decodeTableWord 16 0x0FFF = some (.sys 0xFFF#12) ∧ decodeTableWord 16 0x00E0 = some .cls ∧
    decodeTableWord 16 0x00EE = some .ret ∧ decodeTableWord 16 0x1ABC = some (.jp 0xABC#12) ∧
    decodeTableWord 16 0x2ABC = some (.call 0xABC#12) ∧
    decodeTableWord 16 0x3542 = some (.seVxKk 0x5#4 0x42#8) ∧
    decodeTableWord 16 0x4542 = some (.sneVxKk 0x5#4 0x42#8) ∧
    decodeTableWord 16 0x5120 = some (.seVxVy 0x1#4 0x2#4) ∧
    decodeTableWord 16 0x6A2F = some (.ldVxKk 0xA#4 0x2F#8) ∧
    decodeTableWord 16 0x7001 = some (.addVxKk 0x0#4 0x01#8) ∧
    decodeTableWord 16 0x9AB0 = some (.sneVxVy 0xA#4 0xB#4) ∧
    decodeTableWord 16 0xAFFF = some (.ldINnn 0xFFF#12) ∧
    decodeTableWord 16 0xB123 = some (.jpV0Nnn 0x123#12) ∧
    decodeTableWord 16 0xC0F0 = some (.rndVxKk 0x0#4 0xF0#8) ∧
    decodeTableWord 16 0xDABF = some (.drwVxVyN 0xA#4 0xB#4 0xF#4) := by decide

/-- The words of group 0x8. -/
theorem test_decode_group8 :
    decodeTableWord 16 0x8AB0 = some (.ldVxVy 0xA#4 0xB#4) ∧
    decodeTableWord 16 0x8121 = some (.orVxVy 0x1#4 0x2#4) ∧
    decodeTableWord 16 0x8122 = some (.andVxVy 0x1#4 0x2#4) ∧
    decodeTableWord 16 0x8123 = some (.xorVxVy 0x1#4 0x2#4) ∧
    decodeTableWord 16 0x8F14 = some (.addVxVy 0xF#4 0x1#4) ∧
    decodeTableWord 16 0x81F5 = some (.subVxVy 0x1#4 0xF#4) ∧
    decodeTableWord 16 0x8F06 = some (.shrVx 0xF#4) ∧
    decodeTableWord 16 0x8127 = some (.subnVxVy 0x1#4 0x2#4) ∧
    decodeTableWord 16 0x812E = some (.shlVx 0x1#4) := by decide

/-- The words of groups 0xE and 0xF. -/
theorem test_decode_groups_E_F :
    decodeTableWord 16 0xE19E = some (.skpVx 0x1#4) ∧ decodeTableWord 16 0xE1A1 = some (.sknpVx 0x1#4) ∧
    decodeTableWord 16 0xF107 = some (.ldVxDt 0x1#4) ∧ decodeTableWord 16 0xF30A = some (.ldVxK 0x3#4) ∧
    decodeTableWord 16 0xF015 = some (.ldDtVx 0x0#4) ∧ decodeTableWord 16 0xF018 = some (.ldStVx 0x0#4) ∧
    decodeTableWord 16 0xF01E = some (.addIVx 0x0#4) ∧ decodeTableWord 16 0xF229 = some (.ldFVx 0x2#4) ∧
    decodeTableWord 16 0xFE33 = some (.ldBVx 0xE#4) ∧ decodeTableWord 16 0xF355 = some (.ldMemVx 0x3#4) ∧
    decodeTableWord 16 0xF265 = some (.ldVxMem 0x2#4) := by decide

/-- Non-canonical words: E5, E6, E8, E9. -/
theorem test_decode_ignored_bits :
    decodeTableWord 16 0x01E0 = some .cls ∧ decodeTableWord 16 0x00E1 = some (.sys 0x0E1#12) ∧
    decodeTableWord 16 0x5127 = some (.seVxVy 0x1#4 0x2#4) ∧
    decodeTableWord 16 0x9ABF = some (.sneVxVy 0xA#4 0xB#4) := by decide

/-- Illegal words: E10, E12, E14, E16. -/
theorem test_decode_illegal :
    decodeTableWord 16 0x8128 = none ∧ decodeTableWord 16 0x812F = none ∧
    decodeTableWord 16 0xE19F = none ∧ decodeTableWord 16 0xE000 = none ∧
    decodeTableWord 16 0xE1FF = none ∧ decodeTableWord 16 0xF000 = none ∧
    decodeTableWord 16 0xF101 = none ∧ decodeTableWord 16 0xF175 = none ∧
    decodeTableWord 16 0xF185 = none ∧ decodeTableWord 16 0xFFFF = none := by decide

/-- One byte is no instruction (R70). -/
theorem test_decode_truncated : decodeBytes [0x60#8] = .error .truncated := rfl

/-- The canonical words of `95_test_vectors.md` F1, A16, W11, M7. -/
theorem test_encode :
    encode (.sys 0x300#12) = 0x0300#16 ∧ encode (.shrVx 0x0#4) = 0x8006#16 ∧
    encode (.drwVxVyN 0xF#4 0x1#4 0x1#4) = 0xDF11#16 ∧ encode (.ldMemVx 0xF#4) = 0xFF55#16 := by decide

/-! ### Control flow (vectors F) -/

/-- F1. -/
theorem test_sys : (after (machine 0x0300#16)).map State.pc = some 0x300#16 := by decide
/-- F3. -/
theorem test_jp : (after (machine 0x1ABC#16)).map State.pc = some 0xABC#16 := by decide
/-- F5. -/
theorem test_call_last_entry : (after (withSp (machine 0x2ABC#16) 15)).map
    (fun t => (t.pc, t.sp, t.stackAt 15)) = some (0xABC#16, 16, 0x202#16) := by decide
/-- F6. -/
theorem test_call_full : (failed (withSp (machine 0x2ABC#16) 16)).map
    (fun r => (r.1, r.2.map State.pc)) = some (some 2, some 0x202#16) := by decide
/-- F7. -/
theorem test_ret : (after { withSp (machine 0x00EE#16) 2 with
      stack := (Vector.replicate 16 0#16).set 1 0x456#16 }).map
    (fun t => (t.pc, t.sp, t.stackAt 1)) = some (0x456#16, 1, 0x456#16) := by decide
/-- F8. -/
theorem test_ret_empty : (failed (machine 0x00EE#16)).map (fun r => (r.1, r.2.map State.pc)) =
    some (some 3, some 0x202#16) := by decide
/-- F9. -/
theorem test_se_kk : (after ((machine 0x3542#16).setV 5 0x42#8)).map State.pc = some 0x204#16 ∧
    (after ((machine 0x3542#16).setV 5 0x43#8)).map State.pc = some 0x202#16 := by decide
/-- F10. -/
theorem test_sne_kk : (after ((machine 0x4542#16).setV 5 0x42#8)).map State.pc = some 0x202#16 ∧
    (after ((machine 0x4542#16).setV 5 0x43#8)).map State.pc = some 0x204#16 := by decide
/-- F11, F16. -/
theorem test_se_vy : (after (machine 0x5110#16)).map State.pc = some 0x204#16 ∧
    (after (((machine 0x5127#16).setV 1 7#8).setV 2 8#8)).map State.pc = some 0x202#16 := by decide
/-- F12. -/
theorem test_sne_vy : (after (((machine 0x9120#16).setV 1 1#8).setV 2 2#8)).map State.pc =
    some 0x204#16 ∧ (after (machine 0x9120#16)).map State.pc = some 0x202#16 := by decide
/-- F13. -/
theorem test_jp_v0 : (after ((machine 0xBFFF#16).setV 0 0xFF#8)).map State.pc = some 0x10FE#16 := by
  decide

/-! ### Loads, arithmetic, logic (vectors A) -/

/-- A1. -/
theorem test_ld_kk : (after (machine 0x6FFF#16)).map (fun t => t.getV 15) = some 0xFF#8 := by decide
/-- A2. -/
theorem test_add_kk : (after (((machine 0x7001#16).setV 0 0xFF#8).setV 15 0x55#8)).map
    (fun t => (t.getV 0, t.getV 15)) = some (0x00#8, 0x55#8) := by decide
/-- A3. -/
theorem test_ld_vy : (after ((machine 0x8AB0#16).setV 11 7#8)).map (fun t => t.getV 10) =
    some 7#8 := by decide
/-- A4. -/
theorem test_or : (after (((machine 0x8011#16).setV 0 0x0C#8).setV 1 0x0A#8)).map
    (fun t => (t.getV 0, t.getV 15)) = some (0x0E#8, 0x00#8) := by decide
/-- A5. -/
theorem test_and : (after (((machine 0x8012#16).setV 0 0x0C#8).setV 1 0x0A#8)).map
    (fun t => t.getV 0) = some 0x08#8 := by decide
/-- A6. -/
theorem test_xor : (after (((machine 0x8013#16).setV 0 0x0C#8).setV 1 0x0A#8)).map
    (fun t => t.getV 0) = some 0x06#8 := by decide
/-- A7. -/
theorem test_add_carry : (after (((machine 0x8014#16).setV 0 0xFF#8).setV 1 0x01#8)).map
    (fun t => (t.getV 0, t.getV 15)) = some (0x00#8, 0x01#8) := by decide
/-- A9: the carry stands. -/
theorem test_add_vf : (after (((machine 0x8F14#16).setV 15 0x10#8).setV 1 0x20#8)).map
    (fun t => t.getV 15) = some 0x00#8 := by decide
/-- A13: equal operands give no flag. -/
theorem test_sub_equal : (after ((((machine 0x8015#16).setV 0 0x33#8).setV 1 0x33#8).setV 15 1#8)).map
    (fun t => (t.getV 0, t.getV 15)) = some (0x00#8, 0x00#8) := by decide
/-- A19: the result stands. -/
theorem test_sub_vf : (after (((machine 0x8F15#16).setV 15 0x30#8).setV 1 0x10#8)).map
    (fun t => t.getV 15) = some 0x20#8 := by decide
/-- A15. -/
theorem test_subn : (after (((machine 0x8017#16).setV 0 0x20#8).setV 1 0x10#8)).map
    (fun t => (t.getV 0, t.getV 15)) = some (0xF0#8, 0x00#8) := by decide
/-- A16. -/
theorem test_shr : (after ((machine 0x8016#16).setV 0 0xFF#8)).map
    (fun t => (t.getV 0, t.getV 15)) = some (0x7F#8, 0x01#8) := by decide
/-- A17. -/
theorem test_shl : (after ((machine 0x801E#16).setV 0 0x40#8)).map
    (fun t => (t.getV 0, t.getV 15)) = some (0x80#8, 0x00#8) := by decide
/-- A22: the result stands. -/
theorem test_shl_vf : (after ((machine 0x8F0E#16).setV 15 0x81#8)).map (fun t => t.getV 15) =
    some 0x02#8 := by decide

/-! ### Index register and memory (vectors M) -/

/-- M1. -/
theorem test_ld_i : (after (machine 0xAFFF#16)).map State.i = some 0x0FFF#16 := by decide
/-- M2, M10. -/
theorem test_add_i : (after (((machine 0xF01E#16).setI 0x0FFF#16).setV 0 1#8)).map
      (fun t => (t.i, t.getV 15)) = some (0x1000#16, 0#8) ∧
    (after (((machine 0xF01E#16).setI 0xFFFF#16).setV 0 2#8)).map State.i = some 0x0001#16 := by decide
/-- M3, for whatever `FONT_START` is. -/
theorem test_ld_f : (after ((machine 0xF029#16).setV 0 0xFF#8)).map State.i =
    some (BitVec.ofNat 16 (Config.fontStart.val + 0x4FB)) := rfl
/-- M4. -/
theorem test_ld_b : (after (((machine 0xF033#16).setI 0x300#16).setV 0 157#8)).map
    (fun t => (t.byteAt 0x300, t.byteAt 0x301, t.byteAt 0x302)) = some (1#8, 5#8, 7#8) := by decide
/-- M5: the digits before the fault stay stored. -/
theorem test_ld_b_edge : (failed (((machine 0xF033#16).setI 0x0FFE#16).setV 0 123#8)).map
    (fun r => (r.1, r.2.map fun t => (t.byteAt 0xFFE, t.byteAt 0xFFF, t.pc))) =
    some (some 1, some (1#8, 2#8, 0x202#16)) := by decide
/-- M6. -/
theorem test_store : (after ((((machine 0xF155#16).setI 0x400#16).setV 0 1#8).setV 1 2#8)).map
    (fun t => (t.byteAt 0x400, t.byteAt 0x401, t.i)) = some (1#8, 2#8, 0x400#16) := by decide
/-- M7's edge. -/
theorem test_store_edge : (failed ((((machine 0xF155#16).setI 0xFFF#16).setV 0 1#8).setV 1 2#8)).map
    (fun r => (r.1, r.2.map fun t => t.byteAt 0xFFF)) = some (some 1, some 1#8) := by decide
/-- M8: `x` is included, the register above it is not. -/
theorem test_load : (after (((machine 0xF165#16).place 0x400 [0xAA#8, 0xBB#8, 0xCC#8]).setI 0x400#16)).map
    (fun t => (t.getV 0, t.getV 1, t.getV 2)) = some (0xAA#8, 0xBB#8, 0#8) := by decide
/-- M9. -/
theorem test_load_outside : (failed (((machine 0xF065#16).setI 0x1000#16).setV 0 0x11#8)).map
    (fun r => (r.1, r.2.map fun t => t.getV 0)) = some (some 1, some 0x11#8) := by decide

/-! ### Display (vectors W) -/

/-- W10. -/
theorem test_cls : (after (((machine 0x00E0#16).setPixel 5 6 true).setV 15 7#8)).map
    (fun t => (t.pixel 5 6, t.getV 15)) = some (false, 7#8) := by decide
/-- W3: the wrap, pixel by pixel. -/
theorem test_drw_wrap : (after (((((machine 0xD011#16).setByte 0x300 0xFF#8).setI 0x300#16).setV 0
      63#8))).map (fun t => (t.pixel 0 63, t.pixel 0 0, t.pixel 0 6, t.pixel 0 7, t.getV 15)) =
    some (true, true, true, false, 0#8) := by decide
/-- W6: the collision. -/
theorem test_drw_collision : (after ((((machine 0xD011#16).setByte 0x300 0x81#8).setI
      0x300#16).setPixel 0 7 true)).map (fun t => (t.pixel 0 7, t.pixel 0 0, t.getV 15)) =
    some (false, true, 1#8) := by decide

/-! ### Random, keypad, timers (vectors K), fetch corners (vectors X) -/

/-- K11. -/
theorem test_rnd : (after (withSample (machine 0xC0F0#16) 0#16 0xAB#8)).map (fun t => t.getV 0) =
    some 0xA0#8 := by decide
/-- K1. -/
theorem test_skp : (after (withSample ((machine 0xE09E#16).setV 0 5#8) 0x0020#16 0#8)).map State.pc =
      some 0x204#16 ∧
    (after (withSample ((machine 0xE09E#16).setV 0 5#8) 0x0000#16 0#8)).map State.pc =
      some 0x202#16 := by decide
/-- K3. -/
theorem test_skp_no_key : (failed (withSample ((machine 0xE09E#16).setV 0 0x10#8) 0xFFFF#16 0#8)).map
    (fun r => (r.1, r.2.map State.pc)) = some (some 5, some 0x202#16) := by decide
/-- K2. -/
theorem test_sknp : (after (withSample ((machine 0xE0A1#16).setV 0 5#8) 0x0020#16 0#8)).map State.pc =
      some 0x202#16 ∧
    (after (withSample ((machine 0xE0A1#16).setV 0 5#8) 0xFFDF#16 0#8)).map State.pc =
      some 0x204#16 := by decide
/-- K9. -/
theorem test_ld_vx_dt : (after ((machine 0xF107#16).setDt 0x10#8)).map
    (fun t => (t.getV 1, t.dt)) = some (0x10#8, 0x0F#8) := by decide
/-- K4. -/
theorem test_ld_k_waits : (after (withSample (((machine 0xF30A#16).setDt 5#8).setSt 1#8) 0#16 0#8)).map
    (fun t => (t.mode, t.pc, t.dt, t.st)) = some (.awaitingKey 3#4, 0x202#16, 3#8, 0#8) := by decide
/-- K7. -/
theorem test_ld_k_key : (after (withSample ((machine 0xF30A#16).setDt 5#8) 0x0100#16 0#8)).map
    (fun t => (t.getV 3, t.mode, t.dt)) = some (8#8, .running, 4#8) := by decide
/-- K6. -/
theorem test_waiting_key : (after (withSample (((machine 0x0000#16).setMode (.awaitingKey 3#4)).setDt
      3#8) 0x8001#16 0#8)).map (fun t => (t.getV 3, t.mode, t.pc, t.dt)) =
    some (0#8, .running, 0x200#16, 2#8) := by decide
/-- K4 with `KEYWAIT_EXTRA_TICK = never`, K6 with `always`. -/
theorem test_key_wait_parameter :
    (after { withSample ((machine 0xF30A#16).setDt 5#8) 0#16 0#8 with
      params := withParams 512 0x50 .never }).map State.dt = some 4#8 ∧
    (after { withSample ((State.reset.setMode (.awaitingKey 3#4)).setDt 3#8) 0x8001#16 0#8 with
      params := withParams 512 0x50 .always }).map State.dt = some 1#8 := by decide
/-- M3 with `FONT_START = 0x050`. -/
theorem test_ld_f_parameter : (after { (machine 0xF029#16).setV 0 0x0F#8 with
    params := withParams 512 0x50 .whenNoKey }).map State.i = some 0x009B#16 := by decide
/-- A program start of its own (R5): reset's `pc`, and where the image goes (R194). -/
theorem test_program_start_parameter :
    (State.resetWith (withParams 0x1F0 0x50 .whenNoKey)).pc = 0x1F0#16 ∧
    (match loadProgram [0x12#8] (State.resetWith (withParams 0x1F0 0x50 .whenNoKey)) with
      | .next t => t.byteAt 0x1F0
      | .fault _ => 0#8
      | .refused _ => 0#8) = 0x12#8 := by decide
/-- K8. -/
theorem test_ld_dt : (after ((machine 0xF015#16).setV 0 0xFF#8)).map State.dt = some 0xFE#8 := by decide
/-- K10. -/
theorem test_ld_st : (after ((machine 0xF018#16).setV 0 2#8)).map State.st = some 1#8 := by decide
/-- X1. -/
theorem test_fetch_edge : (failed (((machine 0x0000#16).setPc 0x0FFF#16).setDt 5#8)).map
    (fun r => (r.1, r.2.map fun t => (t.pc, t.dt))) = some (some 1, some (0x0FFF#16, 5#8)) := by decide
/-- X3. -/
theorem test_illegal_word : (failed ((machine 0x8008#16).setDt 5#8)).map
    (fun r => (r.1, r.2.map fun t => (t.pc, t.dt))) = some (some 4, some (0x202#16, 5#8)) := by decide
/-- X5. -/
theorem test_last_fetchable : (after ((State.reset.setPc 0xFFE#16).withFetchWord 16 0x1200)).map
    State.pc = some 0x200#16 := by decide
/-- Writing 0 leaves memory equal to memory never written. -/
theorem test_memory_canonical :
    (((State.reset.setByte 7 1#8).setByte 3 2#8).setByte 7 0#8).mem = [(3, 2#8)] := by decide

/-! ### Witnesses: a concrete state and operands for every clause of every statement with hypotheses -/

theorem witness_ProgramLoadIsBounded : (List.replicate 3583 1#8).length ≤ 3583 ∧
    3583 < (List.replicate 3584 1#8).length := by
  rw [List.length_replicate, List.length_replicate]
  exact ⟨Nat.le_refl _, Nat.lt_succ_self _⟩

/-- The longest image; the defaults, and the two ends of what the constraints admit. -/
theorem witness_BootLaysOutMemory : (List.replicate 3583 1#8).length ≤ 3583 ∧ Config.defaults.ok ∧
    (withParams 80 0 .never).ok ∧ (withParams 513 433 .always).ok :=
  ⟨Nat.le_of_eq List.length_replicate, Config.defaults_ok, by decide, by decide⟩

theorem witness_ResetMeetsInvariant : (withParams 80 0 .never).ok ∧ (withParams 513 433 .always).ok := by
  decide

theorem witness_FontLoadWritesGlyphs : State.reset.params.ok ∧
    (List.replicate 3583 1#8).length ≤ 3583 :=
  ⟨Config.defaults_ok, Nat.le_of_eq List.length_replicate⟩

theorem witness_DecodeInvertsEncode : (Instr.sys 0x0E1#12).wf = true ∧
    (Instr.drwVxVyN 0xF#4 0x1#4 0x0#4).wf = true := by decide

/-- One word for every clause of the opcode map, the ignored fields not zero. -/
theorem witness_DecodeFollowsOpcodeMap :
    (0x0FFF#16 &&& 0xF000#16 = 0x0000#16 ∧ fieldKk 0x0FFF#16 ≠ 0xE0#8 ∧ fieldKk 0x0FFF#16 ≠ 0xEE#8) ∧
    0x0FE0#16 &&& 0xF0FF#16 = 0x00E0#16 ∧ 0x0FEE#16 &&& 0xF0FF#16 = 0x00EE#16 ∧
    0x1FFF#16 &&& 0xF000#16 = 0x1000#16 ∧ 0x2FFF#16 &&& 0xF000#16 = 0x2000#16 ∧
    0x3FFF#16 &&& 0xF000#16 = 0x3000#16 ∧ 0x4FFF#16 &&& 0xF000#16 = 0x4000#16 ∧
    0x5FFF#16 &&& 0xF000#16 = 0x5000#16 ∧ 0x9FFF#16 &&& 0xF000#16 = 0x9000#16 ∧
    0x6FFF#16 &&& 0xF000#16 = 0x6000#16 ∧ 0x7FFF#16 &&& 0xF000#16 = 0x7000#16 ∧
    0x8FF0#16 &&& 0xF00F#16 = 0x8000#16 ∧ 0x8FF1#16 &&& 0xF00F#16 = 0x8001#16 ∧
    0x8FF2#16 &&& 0xF00F#16 = 0x8002#16 ∧ 0x8FF3#16 &&& 0xF00F#16 = 0x8003#16 ∧
    0x8FF4#16 &&& 0xF00F#16 = 0x8004#16 ∧ 0x8FF5#16 &&& 0xF00F#16 = 0x8005#16 ∧
    0x8FF7#16 &&& 0xF00F#16 = 0x8007#16 ∧ 0x8FF6#16 &&& 0xF00F#16 = 0x8006#16 ∧
    0x8FFE#16 &&& 0xF00F#16 = 0x800E#16 ∧ 0xAFFF#16 &&& 0xF000#16 = 0xA000#16 ∧
    0xBFFF#16 &&& 0xF000#16 = 0xB000#16 ∧ 0xCFFF#16 &&& 0xF000#16 = 0xC000#16 ∧
    0xDFFF#16 &&& 0xF000#16 = 0xD000#16 ∧ 0xEF9E#16 &&& 0xF0FF#16 = 0xE09E#16 ∧
    0xEFA1#16 &&& 0xF0FF#16 = 0xE0A1#16 ∧ 0xFF07#16 &&& 0xF0FF#16 = 0xF007#16 ∧
    0xFF0A#16 &&& 0xF0FF#16 = 0xF00A#16 ∧ 0xFF15#16 &&& 0xF0FF#16 = 0xF015#16 ∧
    0xFF18#16 &&& 0xF0FF#16 = 0xF018#16 ∧ 0xFF1E#16 &&& 0xF0FF#16 = 0xF01E#16 ∧
    0xFF29#16 &&& 0xF0FF#16 = 0xF029#16 ∧ 0xFF33#16 &&& 0xF0FF#16 = 0xF033#16 ∧
    0xFF55#16 &&& 0xF0FF#16 = 0xF055#16 ∧ 0xFF65#16 &&& 0xF0FF#16 = 0xF065#16 := by decide

theorem witness_ExactlyIllegalWordsAreRejected : illegalWord 0x8128#16 ∧ illegalWord 0xE19F#16 ∧
    illegalWord 0xFFFF#16 ∧ ¬ illegalWord 0x812E#16 ∧ ¬ illegalWord 0xE1A1#16 ∧
    ¬ illegalWord 0x0000#16 := by
  unfold illegalWord
  refine ⟨?_, ?_, ?_, ?_, ?_, ?_⟩ <;> decide

/-- A word that completes, and one (`RET` with an empty stack) whose instruction faults. -/
theorem witness_StepRunsTheDecodedInstruction :
    ((machine 0x6A2F#16).mode = .running ∧ (machine 0x6A2F#16).pc.toNat + 1 < 4096 ∧
      decode ((machine 0x6A2F#16).wordAt (machine 0x6A2F#16).pc.toNat) = .ok (.ldVxKk 0xA#4 0x2F#8) ∧
      ∃ t, exec (.ldVxKk 0xA#4 0x2F#8) { machine 0x6A2F#16 with pc := (machine 0x6A2F#16).pc + 2#16 } =
        .next t) ∧
    (machine 0x00EE#16).mode = .running ∧ (machine 0x00EE#16).pc.toNat + 1 < 4096 ∧
      decode ((machine 0x00EE#16).wordAt (machine 0x00EE#16).pc.toNat) = .ok .ret ∧
      ∃ f, exec .ret { machine 0x00EE#16 with pc := (machine 0x00EE#16).pc + 2#16 } = .fault f :=
  ⟨⟨rfl, by decide, rfl, _, rfl⟩, rfl, by decide, rfl, _, rfl⟩

theorem witness_FetchOutOfRangeFaults : State.reset.mode = .running ∧
    4096 ≤ (State.reset.setPc 0x1000#16).pc.toNat ∧ (State.reset.setPc 0xFFF#16).pc.toNat = 4095 := by
  decide

/-- The illegal word at the last address from which a word can be fetched. -/
theorem witness_IllegalWordFaults :
    let s := (State.reset.setPc 0xFFE#16).withFetchWord 16 0x8128
    s.mode = .running ∧ s.pc.toNat + 1 = 4095 ∧ illegalWord (s.wordAt s.pc.toNat) :=
  ⟨rfl, by decide, by unfold illegalWord; decide⟩

theorem witness_WaitingStepChecksKeys :
    let s := State.reset.setMode (.awaitingKey 3#4)
    s.mode = .awaitingKey 3#4 ∧ (withSample s 0x0000#16 0#8).keys = 0#16 ∧
    ((withSample s 0x8001#16 0#8).keys.getLsbD (0#4).toNat = true ∧
      ∀ j, j < (0#4).toNat → (withSample s 0x8001#16 0#8).keys.getLsbD j = false) ∧
    (withSample s 0x8000#16 0#8).keys.getLsbD (15#4).toNat = true ∧
      ∀ j, j < (15#4).toNat → (withSample s 0x8000#16 0#8).keys.getLsbD j = false := by decide

theorem witness_KeyWaitUnderEveryParameter :
    (withSample State.reset 0x0000#16 0#8).keys = 0#16 ∧
    (withSample State.reset 0x8000#16 0#8).keys.getLsbD (15#4).toNat = true ∧
      ∀ j, j < (15#4).toNat → (withSample State.reset 0x8000#16 0#8).keys.getLsbD j = false := by decide

/-- A waiting state, and a running state for each of the four kinds of instruction. -/
theorem witness_TimersFallOncePerStep :
    (∃ t, step (State.reset.setMode (.awaitingKey 3#4)) = .next t) ∧
    ((∃ t, step (withSample (machine 0xF30A#16) 0#16 0#8) = .next t) ∧
      decode ((machine 0xF30A#16).wordAt 0x200) = .ok (.ldVxK 3#4)) ∧
    ((∃ t, step (machine 0xF015#16) = .next t) ∧
      decode ((machine 0xF015#16).wordAt 0x200) = .ok (.ldDtVx 0#4)) ∧
    ((∃ t, step (machine 0xF018#16) = .next t) ∧
      decode ((machine 0xF018#16).wordAt 0x200) = .ok (.ldStVx 0#4)) ∧
    (∃ t, step (machine 0x00E0#16) = .next t) ∧
      decode ((machine 0x00E0#16).wordAt 0x200) = .ok .cls :=
  ⟨⟨_, step_of_waiting rfl⟩, ⟨⟨_, rfl⟩, rfl⟩,
    ⟨⟨_, rfl⟩, rfl⟩, ⟨⟨_, rfl⟩, rfl⟩,
    ⟨_, rfl⟩, rfl⟩

/-- A fetch fault and a fault of an instruction that has already stored. -/
theorem witness_FaultingStepKeepsTimers :
    (∃ f, step (State.reset.setPc 0xFFF#16) = .fault f) ∧
    ∃ f, step ((machine 0xF033#16).setI 0x0FFE#16) = .fault f :=
  ⟨⟨_, rfl⟩, _, rfl⟩

/-- Every kind of fault an instruction can raise. -/
theorem witness_EveryFaultHasItsCause :
    (∃ a u, exec (.ldBVx 0#4) (State.reset.setI 0x0FFE#16) = .fault (.addressOutOfRange a u)) ∧
    (∃ a u, exec (.drwVxVyN 0#4 0#4 2#4) (State.reset.setI 0x0FFF#16) =
      .fault (.addressOutOfRange a u)) ∧
    (∃ u, exec (.call 0#12) (withSp State.reset 16) = .fault (.stackOverflow u)) ∧
    (∃ u, exec .ret State.reset = .fault (.stackUnderflow u)) ∧
    ∃ k u, exec (.skpVx 0#4) (State.reset.setV 0 16#8) = .fault (.keyIndexOutOfRange k u) :=
  ⟨⟨_, _, rfl⟩, ⟨_, _, rfl⟩, ⟨_, rfl⟩, ⟨_, rfl⟩, _, _, rfl⟩

/-- Reset, with a jump to the highest target a `JP V0` can reach, and a waiting state. -/
theorem witness_StepKeepsInvariant :
    (Inv ((machine 0xBFFF#16).setV 0 0xFF#8) ∧ ∃ t, step ((machine 0xBFFF#16).setV 0 0xFF#8) = .next t) ∧
    Inv (State.reset.setMode (.awaitingKey 3#4)) ∧
      ∃ t, step (State.reset.setMode (.awaitingKey 3#4)) = .next t :=
  ⟨⟨⟨by decide, by decide, by decide, (fun _ h => nomatch h), Config.defaults_ok⟩, _, rfl⟩,
    ⟨by decide, by decide, by decide, (fun _ _ => by decide), Config.defaults_ok⟩, _, step_of_waiting rfl⟩

theorem witness_InstructionsChangeOnlyTheirParts :
    (∃ t, exec (.call 0x300#12) State.reset = .next t) ∧
    ∃ t, exec (.ldMemVx 0xF#4) (State.reset.setI 0x0FF0#16) = .next t :=
  ⟨⟨_, rfl⟩, _, rfl⟩

/-- A `CLS` and a `DRW` step that do change the screen. -/
theorem witness_OnlyClsAndDrwChangeTheScreen :
    (∃ t, step ((machine 0x00E0#16).setPixel 0 0 true) = .next t ∧
      ¬ keeps ((machine 0x00E0#16).setPixel 0 0 true) t .screen) ∧
    ∃ t, step (((machine 0xD001#16).setByte 0x300 0x80#8).setI 0x300#16) = .next t ∧
      ¬ keeps (((machine 0xD001#16).setByte 0x300 0x80#8).setI 0x300#16) t .screen :=
  ⟨⟨_, rfl, fun h => absurd (h 0 0) (by decide)⟩, _, rfl, fun h => absurd (h 0 0) (by decide)⟩

/-- A `LD B` and a `LD [I]` step that change the last byte of memory. -/
theorem witness_OnlyStoresChangeMemory :
    (∃ t, step (((machine 0xF033#16).setI 0x0FFD#16).setV 0 7#8) = .next t ∧
      t.byteAt 4095 ≠ (((machine 0xF033#16).setI 0x0FFD#16).setV 0 7#8).byteAt 4095) ∧
    ∃ t, step (((machine 0xF055#16).setI 0x0FFF#16).setV 0 7#8) = .next t ∧
      t.byteAt 4095 ≠ (((machine 0xF055#16).setI 0x0FFF#16).setV 0 7#8).byteAt 4095 :=
  ⟨⟨_, rfl, by decide⟩, _, rfl, by decide⟩

/-- Other random bytes with the same keys, for an instruction that reads keys; other keys with the same
random byte, for the one that reads it. -/
theorem witness_InputsReachOnlyTheirInstructions :
    ((∀ x kk, (Instr.skpVx 0#4) ≠ .rndVxKk x kk) ∧
      ((withSample State.reset 5#16 1#8).withInputs [⟨5#16, 2#8⟩] 9).keys =
        (withSample State.reset 5#16 1#8).keys) ∧
    (∀ x, (Instr.rndVxKk 0#4 0xFF#8) ≠ .skpVx x ∧ (Instr.rndVxKk 0#4 0xFF#8) ≠ .sknpVx x ∧
      (Instr.rndVxKk 0#4 0xFF#8) ≠ .ldVxK x) ∧
    ((withSample State.reset 5#16 1#8).withInputs [⟨6#16, 1#8⟩] 9).rnd =
      (withSample State.reset 5#16 1#8).rnd :=
  ⟨⟨by intros; simp, rfl⟩, by intros; simp, rfl⟩

theorem witness_FinishedMachineOnlyTicks : finished (machine 0x1200#16) := by
  unfold finished; decide

/-- Both kinds of word, and a state about to fetch from the highest target. -/
theorem witness_JumpsSetTheProgramCounter : lowByte 0x300#12 ≠ 0xE0#8 ∧ lowByte 0x300#12 ≠ 0xEE#8 ∧
    (State.reset.setPc 0xFFF#16).mode = .running ∧
    (State.reset.setPc 0xFFF#16).pc.toNat = (0xFFF#12).toNat := by decide

/-- The least and the greatest sum from which no word can be fetched. -/
theorem witness_JumpWithOffsetAddsV0 :
    (4095 ≤ (0xFFF#12).toNat + (State.reset.getV 0x0#4).toNat ∧
      (State.reset.setPc 0xFFF#16).pc.toNat = (0xFFF#12).toNat + (State.reset.getV 0x0#4).toNat) ∧
    4095 ≤ (0xFFF#12).toNat + ((State.reset.setV 0 0xFF#8).getV 0x0#4).toNat ∧
    (State.reset.setPc 0x10FE#16).mode = .running ∧ (State.reset.setPc 0x10FE#16).pc.toNat =
      (0xFFF#12).toNat + ((State.reset.setV 0 0xFF#8).getV 0x0#4).toNat := by decide

theorem witness_CallPushesAndJumps : (withSp State.reset 0).sp.val < 16 ∧
    (withSp State.reset 15).sp.val < 16 ∧ (withSp State.reset 16).sp.val = 16 := by decide

theorem witness_ReturnPopsTheTopEntry : (withSp State.reset 1).sp.val = (0 : Fin 16).val + 1 ∧
    (withSp State.reset 16).sp.val = (15 : Fin 16).val + 1 ∧ (withSp State.reset 0).sp.val = 0 := by
  decide

theorem witness_ReturnUndoesCall :
    ∃ t, exec (.call 0x300#12) (withSp State.reset 15) = .next t ∧ keeps t t .stack :=
  ⟨_, rfl, keeps_refl _ _⟩

theorem witness_BcdStoresThreeDigits : (State.reset.setI 0xFFD#16).i.toNat + 2 < 4096 ∧
    4096 ≤ (State.reset.setI 0xFFE#16).i.toNat + 2 ∧
    4096 ≤ (State.reset.setI 0xFFFF#16).i.toNat + 2 := by decide

theorem witness_StoreRegistersWritesConsecutiveBytes :
    (State.reset.setI 0xFF0#16).i.toNat + (0xF#4).toNat < 4096 ∧
    4096 ≤ (State.reset.setI 0xFF1#16).i.toNat + (0xF#4).toNat ∧
    4096 ≤ (State.reset.setI 0xFFFF#16).i.toNat + (0x0#4).toNat := by decide

theorem witness_LoadRegistersReadsConsecutiveBytes :
    (State.reset.setI 0xFF0#16).i.toNat + (0xF#4).toNat < 4096 ∧
    4096 ≤ (State.reset.setI 0xFF1#16).i.toNat + (0xF#4).toNat ∧
    4096 ≤ (State.reset.setI 0x1000#16).i.toNat + (0x0#4).toNat := by decide

theorem witness_StoreThenLoadRestoresRegisters :
    ∃ t, exec (.ldMemVx 0x1#4) ((State.reset.setI 0xFFE#16).setV 1 9#8) = .next t ∧
      keeps t t .index ∧ keeps t t .memory :=
  ⟨_, rfl, keeps_refl _ _, keeps_refl _ _⟩

/-- `V0`, `V1` = 12 08 stored at 0x300, then fetched as `JP 0x208` (vector M12's word). -/
theorem witness_FetchSeesStoredBytes :
    let s := ((State.reset.setI 0x300#16).setV 0 0x12#8).setV 1 0x08#8
    (0#4).toNat + 1 ≤ (1#4).toNat ∧ ∃ t, exec (.ldMemVx 1#4) s = .next t ∧
      keeps t (t.setPc 0x300#16) .memory ∧ (t.setPc 0x300#16).mode = .running ∧
      (t.setPc 0x300#16).pc.toNat = s.i.toNat + (0#4).toNat ∧
      decode (s.getV 0#4 ++ s.getV (0#4 + 1#4)) = .ok (.jp 0x208#12) :=
  ⟨by decide, _, rfl, fun _ => rfl, rfl, rfl, rfl⟩

/-- No row at an `I` outside the address space; rows up to the last byte; one row beyond it. -/
theorem witness_DrawXorsTheSprite :
    (0#4 = 0#4 ∨ (State.reset.setI 0xFFFF#16).i.toNat + (0#4).toNat ≤ 4096) ∧
    (2#4 = 0#4 ∨ (State.reset.setI 0xFFE#16).i.toNat + (2#4).toNat ≤ 4096) ∧
    2#4 ≠ 0#4 ∧ 4096 < (State.reset.setI 0xFFF#16).i.toNat + (2#4).toNat := by decide

/-- A sprite that turns a pixel on, and one of no rows. -/
theorem witness_DrawingTwiceRestoresTheScreen :
    (∃ t, exec (.drwVxVyN 0#4 1#4 1#4) ((State.reset.setByte 0x300 0x80#8).setI 0x300#16) = .next t ∧
      (t.getV 0#4).toNat % 64 = 0 ∧ (t.getV 1#4).toNat % 32 = 0 ∧
      ∃ row col, State.reset.pixel row col = false ∧ t.pixel row col = true) ∧
    ∃ t, exec (.drwVxVyN 0#4 1#4 0#4) State.reset = .next t ∧ (t.getV 0#4).toNat % 64 = 0 ∧
      (t.getV 1#4).toNat % 32 = 0 ∧
      ¬ ∃ row col, State.reset.pixel row col = false ∧ t.pixel row col = true :=
  ⟨⟨_, rfl, by decide, by decide, 0, 0, by decide⟩, _, rfl, by decide, by decide, fun ⟨row, col, h, h'⟩ =>
    by
      have e : ((State.reset.setFlag false).pixel row col) = State.reset.pixel row col := rfl
      rw [h] at e; exact absurd (e.symm.trans h') (by decide)⟩

theorem witness_KeySkipsReadTheSelectedKey : ((State.reset.setV 0 15#8).getV 0#4).toNat ≤ 15 ∧
    15 < ((State.reset.setV 0 16#8).getV 0#4).toNat := by decide

theorem witness_KeyLoadStoresLeastKeyOrWaits :
    (withSample State.reset 0x0000#16 0#8).keys = 0#16 ∧
    (withSample State.reset 0x0100#16 0#8).keys.getLsbD (8#4).toNat = true ∧
      ∀ j, j < (8#4).toNat → (withSample State.reset 0x0100#16 0#8).keys.getLsbD j = false := by decide

end Sys2Proof.Tests
end

section
/-! PROOF. What a completed instruction can have done: the shared operations backwards from a completed
answer, then the frame of every instruction (`10_state.md` R22 to R30), from which the later proofs
take what an instruction leaves unchanged. -/

namespace Sys2Proof.Machine

/-! ### Backwards from a completed answer -/

/-- A checked answer that completed is the state its check lets through. -/
theorem next_of_ite_eq_next {c : Prop} [Decidable c] {u t : State} {f : Fault}
    (h : (if c then .next u else .fault f : Result) = .next t) : u = t := by
  split at h
  · exact Host.Outcome.next.inj h
  · cases h

theorem storeBytes_eq_next {a : Nat} {bs : List Byte} {s t : State}
    (h : storeBytes a bs s = .next t) : t = { s with mem := t.mem } ∧ (s.mem.wf → t.mem.wf) := by
  obtain ⟨u, hu, hs, hw, -⟩ := storeBytes_spec bs a s
  obtain rfl := next_of_ite_eq_next (hu.symm.trans h)
  exact ⟨hs, hw⟩

theorem loadRegs_eq_next {a : Nat} {rs : List Reg} {s t : State} (hn : rs.Nodup)
    (h : loadRegs a rs s = .next t) :
    t = { s with v := t.v } ∧ ∀ r, r ∉ rs → t.getV r = s.getV r := by
  obtain ⟨u, hu, hs, -, hv⟩ := loadRegs_spec rs hn a s
  obtain rfl := next_of_ite_eq_next (hu.symm.trans h)
  exact ⟨hs, hv⟩

theorem execDrwVxVyN_eq_next {x y : Reg} {n : Nibble} {s t : State}
    (h : execDrwVxVyN x y n s = .next t) :
    t = { s with v := t.v, fb := t.fb } ∧ ∀ r, r ≠ vf → t.getV r = s.getV r := by
  obtain ⟨u, hu, hs, -, hv⟩ := drawRows_spec ((s.getV x).toNat % 64) ((s.getV y).toNat % 32) 0 n.toNat
    (by omega) (s.setFlag false)
  obtain rfl := next_of_ite_eq_next (hu.symm.trans h)
  exact ⟨hs, fun r hr => by simp [hv, State.getV_setFlag, hr]⟩

theorem skipOnKey_of_gt {x : Reg} {s : State} (h : 15 < (s.getV x).toNat) (p : Bool) :
    skipOnKey x p s = .fault (.keyIndexOutOfRange (s.getV x) s) := if_pos h

theorem skipOnKey_of_le {x : Reg} {s : State} (h : (s.getV x).toNat ≤ 15) (p : Bool) :
    skipOnKey x p s = .next (s.skipIf (s.keyDown (s.getV x).toNat == p)) := if_neg (Nat.not_lt.mpr h)

theorem skipOnKey_eq_next {x : Reg} {p : Bool} {s t : State} (h : skipOnKey x p s = .next t) :
    ∃ c, t = s.skipIf c := by
  rcases Nat.lt_or_ge 15 (s.getV x).toNat with hx | hx
  · rw [skipOnKey_of_gt hx] at h; cases h
  · rw [skipOnKey_of_le hx] at h
    exact ⟨_, (Host.Outcome.next.inj h).symm⟩

/-- A completed `RET` took an entry of the stack for its `pc`. -/
theorem execRet_eq_next {s t : State} (h : execRet s = .next t) :
    ∃ (k : Fin 16) (n : Fin 17), t = { s with sp := n, pc := s.stackAt k } := by
  unfold execRet at h
  rcases Nat.eq_zero_or_pos s.sp.val with h0 | h0
  · rw [pop_of_empty h0] at h; cases h
  · rw [pop_of_pos h0] at h
    exact ⟨_, _, (Host.Outcome.next.inj h).symm⟩

/-- A completed `CALL` put its `pc` into an entry of the stack. -/
theorem execCall_eq_next {nnn : Addr12} {s t : State} (h : execCall nnn s = .next t) :
    ∃ (k : Fin 16) (n : Fin 17),
      t = { s with stack := s.stack.set k.val s.pc, sp := n, pc := target nnn } := by
  unfold execCall at h
  rcases Nat.lt_or_ge s.sp.val 16 with h0 | h0
  · rw [push_of_lt h0] at h
    exact ⟨⟨_, h0⟩, _, (Host.Outcome.next.inj h).symm⟩
  · rw [push_of_full (by omega)] at h; cases h

/-! ### The frame of every instruction -/

theorem changesOnly_pcStack (s : State) (w : Word) (k : Vector Word 16) (n : Fin 17) :
    changesOnly [.pc, .stack] s { s with stack := k, sp := n, pc := w } :=
  ((changesOnly_stack s k n).trans (changesOnly_pc _ w)).mono (by simp)

/-- A completed instruction has changed only the parts and the registers the spec gives it. -/
theorem exec_frame {i : Instr} {s t : State} (h : exec i s = .next t) :
    changesOnly (touches i) s t ∧ ∀ r, r ∉ dests i → t.getV r = s.getV r := by
  cases i with
  | sys _ | jp _ | jpV0Nnn _ | seVxKk _ _ | sneVxKk _ _ | seVxVy _ _ | sneVxVy _ _ =>
    obtain rfl := Host.Outcome.next.inj h
    exact ⟨changesOnly_setPc s _, fun _ _ => rfl⟩
  | skpVx _ | sknpVx _ =>
    obtain ⟨c, rfl⟩ := skipOnKey_eq_next h
    exact ⟨changesOnly_skipIf s c, fun _ _ => rfl⟩
  | ret =>
    obtain ⟨k, n, rfl⟩ := execRet_eq_next h
    exact ⟨changesOnly_pcStack s _ _ n, fun _ _ => rfl⟩
  | call _ =>
    obtain ⟨k, n, rfl⟩ := execCall_eq_next h
    exact ⟨changesOnly_pcStack s _ _ n, fun _ _ => rfl⟩
  | ldVxKk x _ | addVxKk x _ | ldVxVy x _ | orVxVy x _ | andVxVy x _ | xorVxVy x _ | rndVxKk x _
  | ldVxDt x =>
    obtain rfl := Host.Outcome.next.inj h
    exact changesOnlyRegs_setV s x _
  | addVxVy x _ =>
    obtain rfl := Host.Outcome.next.inj h
    exact changesOnlyRegs_resultThenFlag s x _ _
  | subVxVy x _ | shrVx x | subnVxVy x _ | shlVx x =>
    obtain rfl := Host.Outcome.next.inj h
    exact changesOnlyRegs_flagThenResult s x _ _
  | ldVxMem x =>
    obtain ⟨hs, hv⟩ := loadRegs_eq_next (nodup_regsUpTo x) h
    exact ⟨changesOnly_of_v hs, hv⟩
  | ldINnn _ | addIVx _ | ldFVx _ =>
    obtain rfl := Host.Outcome.next.inj h
    exact ⟨changesOnly_setI s _, fun _ _ => rfl⟩
  | ldBVx _ | ldMemVx _ =>
    have hs := (storeBytes_eq_next h).1
    exact ⟨changesOnly_of_mem hs, fun r _ => by rw [hs]; rfl⟩
  | cls =>
    obtain rfl := Host.Outcome.next.inj h
    exact ⟨changesOnly_clearScreen s, fun _ _ => rfl⟩
  | drwVxVyN _ _ _ =>
    obtain ⟨hs, hv⟩ := execDrwVxVyN_eq_next h
    exact ⟨changesOnly_of_vFb hs, fun r hr => hv r (List.ne_of_not_mem_cons hr)⟩
  | ldDtVx _ =>
    obtain rfl := Host.Outcome.next.inj h
    exact ⟨changesOnly_dt s _, fun _ _ => rfl⟩
  | ldStVx _ =>
    obtain rfl := Host.Outcome.next.inj h
    exact ⟨changesOnly_st s _, fun _ _ => rfl⟩
  | ldVxK x =>
    obtain rfl := Host.Outcome.next.inj h
    obtain ⟨hs, hv⟩ := changesOnly_keyWait x s
    exact ⟨hs, fun r hr => hv r (List.ne_of_not_mem_cons hr)⟩

/-- Settles O20: the frame of every instruction. -/
theorem instructionsChangeOnlyTheirParts : Obligations.InstructionsChangeOnlyTheirParts :=
  fun _ _ _ h => exec_frame h

end Sys2Proof.Machine
end

section
/-! PROOF. The invariant of the machine (`10_state.md` R24): it holds at reset, and every step keeps it. -/

namespace Sys2Proof.Machine

/-! ### Reset -/

theorem resetWith_inv {p : Config.Params} (hp : p.ok) : Inv (State.resetWith p) := by
  refine ⟨Memory.wf_nil, ?_, fun k => ?_, (fun _ h => nomatch h), hp⟩
  · have := p.programStart.isLt
    simp only [State.resetWith, BitVec.toNat_ofNat]
    omega
  · simp [State.resetWith, State.stackAt]

/-- Settles O2: the invariant at reset; the defaults meet the constraints. -/
theorem resetMeetsInvariant : Obligations.ResetMeetsInvariant :=
  ⟨fun _ hp => resetWith_inv hp, resetWith_inv Config.defaults_ok⟩

/-! ### One instruction -/

theorem target_toNat_lt (nnn : Addr12) : (target nnn).toNat < 4096 := by
  rw [target, BitVec.toNat_setWidth_of_le (by decide)]
  exact nnn.isLt

theorem toNat_add_two_le (w : Word) : (w + 2#16).toNat ≤ w.toNat + 2 := by
  rw [BitVec.toNat_add]
  exact Nat.mod_le _ _

theorem skipIf_pc_le {s : State} (hp : s.pc.toNat ≤ 0x1000) (c : Bool) :
    (s.skipIf c).pc.toNat ≤ 0x1002 := by
  have := toNat_add_two_le s.pc
  rw [State.skipIf_pc]
  split <;> omega

theorem exec_keeps_mem_wf {i : Instr} {s t : State} (h : exec i s = .next t) (hw : s.mem.wf) :
    t.mem.wf := by
  cases i with
  | ldBVx _ | ldMemVx _ => exact (storeBytes_eq_next h).2 hw
  | skpVx _ | sknpVx _ => obtain ⟨c, rfl⟩ := skipOnKey_eq_next h; exact hw
  | ret => obtain ⟨k, n, rfl⟩ := execRet_eq_next h; exact hw
  | call _ => obtain ⟨k, n, rfl⟩ := execCall_eq_next h; exact hw
  | drwVxVyN _ _ _ => rw [(execDrwVxVyN_eq_next h).1]; exact hw
  | ldVxMem x => rw [(loadRegs_eq_next (nodup_regsUpTo x) h).1]; exact hw
  | ldVxK x => obtain rfl := Host.Outcome.next.inj h; rwa [keyWait_mem]
  | _ => obtain rfl := Host.Outcome.next.inj h; exact hw

/-- From an advanced `pc` and return addresses in bounds no instruction takes `pc` beyond the highest
target of `JP V0` (`10_state.md` R24). -/
theorem exec_pc_le {i : Instr} {s t : State} (h : exec i s = .next t) (hp : s.pc.toNat ≤ 0x1000)
    (hs : ∀ k, (s.stackAt k).toNat ≤ 0x1000) : t.pc.toNat ≤ 0x10FE := by
  cases i with
  | sys nnn | jp nnn =>
    obtain rfl := Host.Outcome.next.inj h
    exact (target_toNat_lt nnn).le.trans (by decide)
  | jpV0Nnn nnn =>
    obtain rfl := Host.Outcome.next.inj h
    have := target_toNat_lt nnn
    have := (s.getV 0x0#4).isLt
    rw [State.setPc_pc, BitVec.toNat_add, State.getVWord, BitVec.toNat_setWidth_of_le (by decide)]
    omega
  | call nnn =>
    obtain ⟨k, n, rfl⟩ := execCall_eq_next h
    exact (target_toNat_lt nnn).le.trans (by decide)
  | ret =>
    obtain ⟨k, n, rfl⟩ := execRet_eq_next h
    exact (hs k).trans (by decide)
  | seVxKk _ _ | sneVxKk _ _ | seVxVy _ _ | sneVxVy _ _ =>
    obtain rfl := Host.Outcome.next.inj h
    exact (skipIf_pc_le hp _).trans (by decide)
  | skpVx _ | sknpVx _ =>
    obtain ⟨c, rfl⟩ := skipOnKey_eq_next h
    exact (skipIf_pc_le hp c).trans (by decide)
  | _ =>
    have e : t.pc = s.pc := (exec_frame h).1 .pc (by simp [touches])
    rw [e]; omega

theorem exec_stackAt_le {i : Instr} {s t : State} (h : exec i s = .next t)
    (hp : s.pc.toNat ≤ 0x1000) (hs : ∀ k, (s.stackAt k).toNat ≤ 0x1000) (k : Fin 16) :
    (t.stackAt k).toNat ≤ 0x1000 := by
  cases i with
  | call nnn =>
    obtain ⟨j, n, rfl⟩ := execCall_eq_next h
    simp only [State.stackAt, Vector.getElem_set]
    split
    · exact hp
    · exact hs k
  | ret => obtain ⟨j, n, rfl⟩ := execRet_eq_next h; exact hs k
  | _ =>
    have e := ((exec_frame h).1 .stack (by simp [touches])).2 k
    rw [e]; exact hs k

/-- No instruction writes both `pc` and the mode, so one that begins a wait leaves `pc`. -/
theorem mode_not_mem_touches_of_pc_mem {i : Instr} (h : Part.pc ∈ touches i) :
    Part.mode ∉ touches i := by
  cases i with
  | ldVxK x => simp [touches] at h
  | _ => simp [touches]

theorem exec_pc_eq_of_awaitingKey {i : Instr} {s t : State} {x : Reg} (h : exec i s = .next t)
    (hm : s.mode = .running) (ht : t.mode = .awaitingKey x) : t.pc = s.pc := by
  by_cases hp : Part.pc ∈ touches i
  · have e : t.mode = s.mode := (exec_frame h).1 .mode (mode_not_mem_touches_of_pc_mem hp)
    rw [e, hm] at ht; cases ht
  · exact (exec_frame h).1 .pc hp

theorem exec_params {i : Instr} {s t : State} (h : exec i s = .next t) : t.params = s.params :=
  (exec_frame h).1 .params (by cases i <;> simp [touches])

/-- An instruction keeps the invariant if the `pc` it runs on is the address after an instruction. -/
theorem exec_keeps_inv {i : Instr} {s t : State} (h : exec i s = .next t) (hi : Inv s)
    (hm : s.mode = .running) (hp : s.pc.toNat ≤ 0x1000) : Inv t := by
  obtain ⟨hw, -, hs, -, hok⟩ := hi
  refine ⟨exec_keeps_mem_wf h hw, exec_pc_le h hp hs, exec_stackAt_le h hp hs, fun x hx => ?_, ?_⟩
  · rwa [exec_pc_eq_of_awaitingKey h hm hx]
  · rwa [exec_params h]

/-! ### What surrounds the instruction -/

/-- A fetch that succeeds leaves `pc` at most at the end of memory. -/
theorem advance_pc_le {s : State} (hp : s.pc.toNat + 1 < 4096) : s.advance.pc.toNat ≤ 0x1000 := by
  have := toNat_add_two_le s.pc
  rw [State.advance_pc]
  omega

theorem advance_keeps_inv {s : State} (hi : Inv s) (hp : s.pc.toNat + 1 < 4096) :
    Inv s.advance := by
  obtain ⟨hw, -, hs, -, hok⟩ := hi
  have hle := advance_pc_le hp
  exact ⟨hw, hle.trans (by decide), hs, fun _ _ => hle, hok⟩

theorem keyWait_keeps_inv {s : State} (x : Reg) (hi : Inv s) (hp : s.pc.toNat ≤ 0x1000) :
    Inv (keyWait x s) := by
  obtain ⟨hw, -, hs, -, hok⟩ := hi
  have hf := (changesOnly_keyWait x s).1
  have hpc : (keyWait x s).pc = s.pc := hf .pc (by decide)
  have hst := (hf .stack (by decide)).2
  refine ⟨by rwa [keyWait_mem], by rw [hpc]; omega, fun k => by rw [hst k]; exact hs k,
    fun _ _ => by rwa [hpc], by rwa [keyWait_params]⟩

/-- The tick and the used-up sample are no part of the invariant. -/
theorem endStep_keeps_inv {s : State} (hi : Inv s) : Inv s.endStep := hi

/-- Settles O19: a completed step is an instruction run at an advanced `pc` or a key wait, and both
keep the invariant. -/
theorem stepKeepsInvariant : Obligations.StepKeepsInvariant := by
  intro s t hi h
  rcases step_eq_next h with ⟨i, u, hm, hp, -, hu, rfl⟩ | ⟨x, hm, rfl⟩
  · exact endStep_keeps_inv
      (exec_keeps_inv hu (advance_keeps_inv hi hp) hm (advance_pc_le hp))
  · have ⟨_, _, _, hwait, _⟩ := hi
    exact endStep_keeps_inv (keyWait_keeps_inv x hi (hwait x hm))

end Sys2Proof.Machine
end

section
/-! PROOF. The timers over a completed step (`10_state.md` R27, `40_engine_step.md` R94). -/

namespace Sys2Proof.Machine

/-- Only the key wait and the two timer loads write a timer themselves. -/
theorem timers_not_mem_touches {i : Instr}
    (hi : ∀ x, i ≠ .ldVxK x ∧ i ≠ .ldDtVx x ∧ i ≠ .ldStVx x) :
    Part.delay ∉ touches i ∧ Part.sound ∉ touches i := by
  cases i with
  | ldVxK x => exact absurd rfl (hi x).1
  | ldDtVx x => exact absurd rfl (hi x).2.1
  | ldStVx x => exact absurd rfl (hi x).2.2
  | _ => simp [touches]

theorem endStep_timers (s : State) :
    s.endStep.dt.toNat = s.dt.toNat - 1 ∧ s.endStep.st.toNat = s.st.toNat - 1 :=
  ⟨countDown_toNat s.dt, countDown_toNat s.st⟩

/-- A step with a key wait takes the extra ticks and then the step's own. -/
theorem keyWait_endStep_timers (x : Reg) (s : State) :
    (keyWait x s).endStep.dt.toNat = s.dt.toNat - (s.extraTicks + 1) ∧
      (keyWait x s).endStep.st.toNat = s.st.toNat - (s.extraTicks + 1) := by
  obtain ⟨hd, hs⟩ := keyWait_timers x s
  obtain ⟨ed, es⟩ := endStep_timers (keyWait x s)
  omega

/-- Settles O15: the tick ends every step, and of the instructions only three write a timer before. -/
theorem timersFallOncePerStep : Obligations.TimersFallOncePerStep := by
  intro s t h
  rcases step_eq_next h with ⟨i, u, hm, -, hd, hu, rfl⟩ | ⟨x, hm, rfl⟩
  · obtain ⟨ed, es⟩ := endStep_timers u
    refine ⟨fun y hy => ?_, fun j _ hj => ?_⟩
    · rw [hm] at hy; cases hy
    obtain rfl : i = j := Except.ok.inj (hd.symm.trans hj)
    refine ⟨?_, ?_, ?_, fun hi => ?_⟩
    · rintro x rfl
      obtain rfl := Host.Outcome.next.inj hu
      exact keyWait_endStep_timers x s.advance
    · rintro x rfl
      obtain rfl := Host.Outcome.next.inj hu
      exact ⟨ed, es⟩
    · rintro x rfl
      obtain rfl := Host.Outcome.next.inj hu
      exact ⟨ed, es⟩
    · obtain ⟨hdt, hst⟩ := timers_not_mem_touches hi
      have kd : u.dt = s.dt := (exec_frame hu).1 .delay hdt
      have ks : u.st = s.st := (exec_frame hu).1 .sound hst
      exact ⟨kd ▸ ed, ks ▸ es⟩
  · refine ⟨fun _ _ => keyWait_endStep_timers x s, fun j hj => ?_⟩
    rw [hm] at hj; cases hj

end Sys2Proof.Machine
end

section
/-! PROOF. `ST` is never read (`10_state.md` R28): every operation answers the same from states that
differ in `ST` alone, once `ST` is left out of the comparison. -/

namespace Sys2Proof.Machine

/-! ### The outcome without `ST` -/

/-- The outcome with `ST` left out, in the terms of `Obligations.SoundTimerIsNeverRead`. -/
def withoutSt (r : Result) : Result := mapState (fun t => t.setSt 0#8) r

@[simp] theorem withoutSt_mapState_setSt (r : Result) (b : Byte) :
    withoutSt (mapState (fun t => t.setSt b) r) = withoutSt r := by
  rcases r with s | f | u
  · rfl
  · cases f <;> rfl
  · rfl

/-- The end of the step brings no value of `ST` back into the rest of the state. -/
theorem withoutSt_finish {r r' : Result} (h : withoutSt r = withoutSt r') :
    withoutSt (finish r) = withoutSt (finish r') := by
  have hf : ∀ q : Result, withoutSt (finish q) = withoutSt (finish (withoutSt q)) := by
    rintro (s | f | u)
    · rfl
    · cases f <;> rfl
    · rfl
  rw [hf r, hf r', h]

/-! ### The shared operations -/

theorem storeBytes_setSt (bs : List Byte) (a : Nat) (s : State) (b : Byte) :
    storeBytes a bs (s.setSt b) = mapState (fun t => t.setSt b) (storeBytes a bs s) := by
  induction bs generalizing a s with
  | nil => rfl
  | cons c bs ih =>
    rcases Nat.lt_or_ge a 4096 with h | h
    · rw [storeBytes, storeBytes, memWrite_of_lt h, memWrite_of_lt h]
      exact ih (a + 1) (s.setByte a c)
    · rw [storeBytes, storeBytes, memWrite_of_ge h, memWrite_of_ge h]; rfl

theorem loadRegs_setSt (rs : List Reg) (a : Nat) (s : State) (b : Byte) :
    loadRegs a rs (s.setSt b) = mapState (fun t => t.setSt b) (loadRegs a rs s) := by
  induction rs generalizing a s with
  | nil => rfl
  | cons r rs ih =>
    rcases Nat.lt_or_ge a 4096 with h | h
    · rw [loadRegs, loadRegs, memRead_of_lt h, memRead_of_lt h]
      exact ih (a + 1) (s.setV r (s.byteAt a))
    · rw [loadRegs, loadRegs, memRead_of_ge h, memRead_of_ge h]; rfl

theorem State.flipPixel_setSt (s : State) (b : Byte) (row : Fin 32) (col : Fin 64) :
    (s.setSt b).flipPixel row col = (s.flipPixel row col).setSt b := by
  simp only [State.flipPixel]
  rw [State.setSt_pixel]
  split <;> rfl

theorem State.drawBit_setSt (s : State) (b : Byte) (x0 row : Nat) (c : Byte) (k : Nat) :
    (s.setSt b).drawBit x0 row c k = (s.drawBit x0 row c k).setSt b := by
  unfold State.drawBit
  split
  · exact s.flipPixel_setSt b _ _
  · rfl

theorem State.drawRow_setSt (s : State) (b : Byte) (x0 row : Nat) (c : Byte) :
    (s.setSt b).drawRow x0 row c = (s.drawRow x0 row c).setSt b :=
  List.foldl_hom (fun t : State => t.setSt b) fun t k => t.drawBit_setSt b x0 row c k

theorem drawRows_setSt (x0 y0 r n : Nat) (s : State) (b : Byte) :
    drawRows x0 y0 r n (s.setSt b) = mapState (fun t => t.setSt b) (drawRows x0 y0 r n s) := by
  induction n generalizing r s with
  | zero => rfl
  | succ n ih =>
    have ea : (s.setSt b).addr r = s.addr r := rfl
    rcases Nat.lt_or_ge (s.addr r) 4096 with h | h
    · simp only [drawRows, ea, memRead_of_lt h, State.setSt_byteAt, State.drawRow_setSt, ih]
    · simp only [drawRows, ea, memRead_of_ge h]; rfl

theorem skipOnKey_setSt (x : Reg) (p : Bool) (s : State) (b : Byte) :
    skipOnKey x p (s.setSt b) = mapState (fun t => t.setSt b) (skipOnKey x p s) := by
  rcases Nat.lt_or_ge 15 (s.getV x).toNat with h | h
  · rw [skipOnKey_of_gt h, skipOnKey_of_gt (s := s.setSt b) h]; rfl
  · rw [skipOnKey_of_le h, skipOnKey_of_le (s := s.setSt b) h]; rfl

theorem execRet_setSt (s : State) (b : Byte) :
    execRet (s.setSt b) = mapState (fun t => t.setSt b) (execRet s) := by
  unfold execRet
  rcases Nat.eq_zero_or_pos s.sp.val with h | h
  · rw [pop_of_empty h, pop_of_empty (s := s.setSt b) h]; rfl
  · rw [pop_of_pos h, pop_of_pos (s := s.setSt b) h]; rfl

theorem execCall_setSt (nnn : Addr12) (s : State) (b : Byte) :
    execCall nnn (s.setSt b) = mapState (fun t => t.setSt b) (execCall nnn s) := by
  unfold execCall
  rcases Nat.lt_or_ge s.sp.val 16 with h | h
  · rw [push_of_lt h, push_of_lt (s := s.setSt b) h]; rfl
  · have h16 : s.sp.val = 16 := by omega
    rw [push_of_full h16, push_of_full (s := s.setSt b) h16]; rfl

theorem withoutSt_keyWaitWith (e : Config.KeyWaitExtraTick) (x : Reg) (s : State) (b : Byte) :
    withoutSt (.next (keyWaitWith e x (s.setSt b))) = withoutSt (.next (keyWaitWith e x s)) := by
  have ek : (s.setSt b).keys = s.keys := rfl
  simp only [keyWaitWith, ek]
  cases lowestKey s.keys <;> cases e <;> rfl

theorem withoutSt_keyWait (x : Reg) (s : State) (b : Byte) :
    withoutSt (.next (keyWait x (s.setSt b))) = withoutSt (.next (keyWait x s)) :=
  withoutSt_keyWaitWith s.params.keyWaitExtraTick x s b

/-! ### Instructions and steps -/

/-- No instruction reads `ST`; `LD ST, Vx` overwrites it, and a key wait only ticks it. -/
theorem withoutSt_exec (i : Instr) (s : State) (b : Byte) :
    withoutSt (exec i (s.setSt b)) = withoutSt (exec i s) := by
  cases i with
  | ret => exact (congrArg withoutSt (execRet_setSt s b)).trans (withoutSt_mapState_setSt _ b)
  | call nnn =>
    exact (congrArg withoutSt (execCall_setSt nnn s b)).trans (withoutSt_mapState_setSt _ b)
  | skpVx x | sknpVx x =>
    exact (congrArg withoutSt (skipOnKey_setSt x _ s b)).trans (withoutSt_mapState_setSt _ b)
  | drwVxVyN x y n =>
    exact (congrArg withoutSt (drawRows_setSt _ _ 0 n.toNat (s.setFlag false) b)).trans
      (withoutSt_mapState_setSt _ b)
  | ldBVx _ | ldMemVx _ =>
    exact (congrArg withoutSt (storeBytes_setSt _ _ s b)).trans (withoutSt_mapState_setSt _ b)
  | ldVxMem _ =>
    exact (congrArg withoutSt (loadRegs_setSt _ _ s b)).trans (withoutSt_mapState_setSt _ b)
  | ldVxK x => exact withoutSt_keyWait x s b
  | _ => rfl

/-- Settles O24: fetch and decode do not see `ST`, an instruction and a key wait do not read it. -/
theorem soundTimerIsNeverRead : Obligations.SoundTimerIsNeverRead := by
  intro s b
  show withoutSt (step (s.setSt b)) = withoutSt (step s)
  cases hm : s.mode with
  | awaitingKey x =>
    have hm' : (s.setSt b).mode = .awaitingKey x := hm
    rw [step_of_waiting hm, step_of_waiting hm']
    exact withoutSt_finish (withoutSt_keyWait x s b)
  | running =>
    have hm' : (s.setSt b).mode = .running := hm
    rcases Nat.lt_or_ge (s.pc.toNat + 1) 4096 with hp | hp
    · have hp' : (s.setSt b).pc.toNat + 1 < 4096 := hp
      have hw : (s.setSt b).wordAt (s.setSt b).pc.toNat = s.wordAt s.pc.toNat := rfl
      cases hd : decode (s.wordAt s.pc.toNat) with
      | ok i =>
        rw [step_of_decode hm hp hd, step_of_decode hm' hp' (hw ▸ hd)]
        exact withoutSt_finish (withoutSt_exec i s.advance b)
      | error e =>
        rw [step_of_illegal hm hp hd, step_of_illegal hm' hp' (hw ▸ hd)]; rfl
    · have hp' : 4095 ≤ (s.setSt b).pc.toNat := Nat.le_of_succ_le_succ hp
      rw [step_of_fetch_fault hm (Nat.le_of_succ_le_succ hp), step_of_fetch_fault hm' hp']; rfl

end Sys2Proof.Machine
end

section
/-! PROOF. Memory after boot (`20_memory.md` R58, `70_reset_and_hazards.md` R193 to R195): boot places two
blocks of bytes in the memory of reset, and placing bytes inside the address space keeps the invariant. -/

namespace Sys2Proof.Machine

/-- A memory in canonical form is all that bytes placed by the host have to keep of the invariant. -/
theorem place_keeps_inv {s : State} (hi : Inv s) {a : Nat} {bs : List Byte}
    (hl : a + bs.length ≤ 4096) : Inv (s.place a bs) := by
  obtain ⟨hs, hw, -, -⟩ := State.place_spec bs a s
  obtain ⟨hm, hrest⟩ := hi
  rw [hs]
  exact ⟨hw hm hl, hrest⟩

@[simp] theorem State.place_params (s : State) (a : Nat) (bs : List Byte) :
    (s.place a bs).params = s.params := changesOnly_place s a bs .params (by decide)

theorem loadProgram_of_le {image : List Byte} (h : image.length ≤ 3583) (s : State) :
    loadProgram image s = .next (s.place s.programStart image) := if_pos h

/-- Boot with an image that is not too long: the font placed first, then the image. -/
theorem boot_of_le {image : List Byte} (h : image.length ≤ 3583) (glyphs : Vector Byte 80)
    (p : Config.Params) :
    boot image glyphs p = .next (((State.resetWith p).place p.fontStart.val glyphs.toList).place
      p.programStart.val image) := by
  have hp : (loadFont glyphs (State.resetWith p)).programStart = p.programStart.val := by
    simp [loadFont, State.programStart, State.resetWith]
  rw [boot, loadProgram_of_le h, hp]
  rfl

/-- Settles O5: the image lies above the font (`00_scope.md` R5), so placing it leaves the glyphs. -/
theorem bootLaysOutMemory : Obligations.BootLaysOutMemory := by
  intro image glyphs p hlen hok
  have ⟨hfont, hprog⟩ := hok
  rw [Config.romMax, Config.memSize] at hprog
  obtain ⟨-, -, hglyph, hout⟩ :=
    State.place_spec glyphs.toList p.fontStart.val (State.resetWith p)
  obtain ⟨-, -, himage, hout'⟩ := State.place_spec image p.programStart.val
    ((State.resetWith p).place p.fontStart.val glyphs.toList)
  rw [Vector.length_toList] at hout
  refine ⟨_, boot_of_le hlen glyphs p, fun k hk => ?_, himage,
    fun a ha ha' => ?_, ?_, ?_⟩
  · rw [hout' _ (by omega), hglyph k (by simpa using hk), Vector.getElem_toList]
  · rw [hout' a ha', hout a ha]; rfl
  · exact ((changesOnly_place _ _ _).trans (changesOnly_place _ _ _)).mono (by simp)
  · have hs := place_keeps_inv (resetWith_inv hok) (bs := glyphs.toList)
      (a := p.fontStart.val) (by rw [Vector.length_toList]; omega)
    exact place_keeps_inv hs (by omega)

end Sys2Proof.Machine
end

section
/-! PROOF. The stores (`20_memory.md` R60 to R62): the bytes a completed store has written, that no other
instruction writes memory, and that a fetch reads them. -/

namespace Sys2Proof.Machine

/-! ### The bytes of a completed store -/

/-- A completed store lies in the address space and has written exactly its bytes. -/
theorem storeBytes_eq_next_bytes {a : Nat} {bs : List Byte} {s t : State}
    (h : storeBytes a bs s = .next t) :
    (∀ k (hk : k < bs.length), a + k < 4096 ∧ t.byteAt (a + k) = bs[k]) ∧
      sameBytesOutside a bs.length s t := by
  obtain ⟨u, hu, -, -, hb, ho⟩ := storeBytes_spec bs a s
  rw [hu] at h
  have hin : bs = [] ∨ a + bs.length ≤ 4096 := by
    by_contra hn
    rw [if_neg hn] at h; cases h
  obtain rfl := next_of_ite_eq_next h
  refine ⟨fun k hk => ?_, fun p hp => ho p (hp.imp_right .inl)⟩
  have hlt : a + k < 4096 := by
    rcases hin with rfl | hin
    · cases hk
    · omega
  exact ⟨hlt, hb k hk hlt⟩

theorem within_of_byteAt_ne {a n p : Nat} {s t : State} (h : sameBytesOutside a n s t)
    (hp : t.byteAt p ≠ s.byteAt p) : a ≤ p ∧ p < a + n := by
  by_contra hn
  exact hp (h p (by omega))

theorem execLdBVx_sameBytesOutside {x : Reg} {s t : State} (h : execLdBVx x s = .next t) :
    sameBytesOutside s.i.toNat 3 s t := (storeBytes_eq_next_bytes h).2

theorem execLdMemVx_sameBytesOutside {x : Reg} {s t : State} (h : execLdMemVx x s = .next t) :
    sameBytesOutside s.i.toNat (x.toNat + 1) s t := by
  simpa [State.addr] using (storeBytes_eq_next_bytes h).2

/-- A completed `LD [I], Vx` has written `V[k]` at `I + k`, in the address space. -/
theorem execLdMemVx_byteAt {x : Reg} {s t : State} (h : execLdMemVx x s = .next t) {k : Reg}
    (hk : k.toNat ≤ x.toNat) :
    s.i.toNat + k.toNat < 4096 ∧ t.byteAt (s.i.toNat + k.toNat) = s.getV k := by
  have hb := (storeBytes_eq_next_bytes h).1 k.toNat (by simpa using Nat.lt_succ_of_le hk)
  simpa [State.addr, getElem_regsUpTo] using hb

/-! ### Only the stores write memory -/

theorem exec_byteAt_ne {i : Instr} {s t : State} {a : Nat} (h : exec i s = .next t)
    (ha : t.byteAt a ≠ s.byteAt a) :
    (∃ x, i = .ldBVx x ∧ s.i.toNat ≤ a ∧ a < s.i.toNat + 3) ∨
      ∃ x, i = .ldMemVx x ∧ s.i.toNat ≤ a ∧ a ≤ s.i.toNat + x.toNat := by
  cases i with
  | ldBVx x => exact .inl ⟨x, rfl, within_of_byteAt_ne (execLdBVx_sameBytesOutside h) ha⟩
  | ldMemVx x =>
    obtain ⟨hlo, hhi⟩ := within_of_byteAt_ne (execLdMemVx_sameBytesOutside h) ha
    exact .inr ⟨x, rfl, hlo, Nat.le_of_lt_succ hhi⟩
  | _ => exact absurd ((exec_frame h).1 .memory (by simp [touches]) a) ha

/-- Settles O22: neither the fetch nor the end of a step nor a key wait writes memory, and of the
instructions only the stores do. -/
theorem onlyStoresChangeMemory : Obligations.OnlyStoresChangeMemory := by
  intro s t a h ha
  rcases step_eq_next h with ⟨i, u, hm, -, hd, hu, rfl⟩ | ⟨x, -, rfl⟩
  · refine ⟨hm, ?_⟩
    rcases exec_byteAt_ne hu ha with ⟨x, rfl, hx⟩ | ⟨x, rfl, hx⟩
    · exact .inl ⟨x, hd, hx⟩
    · exact .inr ⟨x, hd, hx⟩
  · exact absurd ((changesOnly_keyWait x s).1 .memory (by decide) a) ha

/-! ### A fetch sees the stored bytes -/

/-- The word that a completed `LD [I], Vx` has put at `I + k`, in the address space. -/
theorem execLdMemVx_wordAt {x k : Reg} {s t : State} (h : execLdMemVx x s = .next t)
    (hk : k.toNat + 1 ≤ x.toNat) :
    s.i.toNat + k.toNat + 1 < 4096 ∧
      t.wordAt (s.i.toNat + k.toNat) = s.getV k ++ s.getV (k + 1#4) := by
  have hsucc : (k + 1#4).toNat = k.toNat + 1 := by have := x.isLt; bv_omega
  obtain ⟨-, hhi⟩ := execLdMemVx_byteAt h (Nat.le_of_succ_le hk)
  obtain ⟨hlt, hlo⟩ := execLdMemVx_byteAt h (hsucc ▸ hk)
  rw [hsucc] at hlt hlo
  exact ⟨hlt, congrArg₂ (· ++ ·) hhi hlo⟩

theorem wordAt_of_keeps_memory {s t : State} (h : keeps s t .memory) (a : Nat) :
    t.wordAt a = s.wordAt a := congrArg₂ (· ++ ·) (h a) (h (a + 1))

/-- Settles O45: the word at the later `pc` is the stored one, and the step runs what it decodes to. -/
theorem fetchSeesStoredBytes : Obligations.FetchSeesStoredBytes := by
  intro x k i s t u hk h hmem hm hpc hd
  obtain ⟨hlt, hw⟩ := execLdMemVx_wordAt h hk
  refine step_of_decode hm (hpc ▸ hlt) ?_
  rwa [hpc, wordAt_of_keeps_memory hmem, hw]

end Sys2Proof.Machine
end

section
/-! PROOF. The decoder and the opcode map (`30_encoding.md` R79 to R81): a word of a row decodes to the
row's instruction with the operands of the word, and only the illegal words decode to none. -/

namespace Sys2Proof

/-! ### The rows of the opcode map -/

/-- The instruction of the row of `i`, with the operand fields that the word holds (`00_scope.md` R8). -/
def readOperands : Instr → Word → Instr
  | .sys _, op => .sys (fieldNnn op)
  | .cls, _ => .cls
  | .ret, _ => .ret
  | .jp _, op => .jp (fieldNnn op)
  | .call _, op => .call (fieldNnn op)
  | .seVxKk _ _, op => .seVxKk (fieldX op) (fieldKk op)
  | .sneVxKk _ _, op => .sneVxKk (fieldX op) (fieldKk op)
  | .seVxVy _ _, op => .seVxVy (fieldX op) (fieldY op)
  | .ldVxKk _ _, op => .ldVxKk (fieldX op) (fieldKk op)
  | .addVxKk _ _, op => .addVxKk (fieldX op) (fieldKk op)
  | .ldVxVy _ _, op => .ldVxVy (fieldX op) (fieldY op)
  | .orVxVy _ _, op => .orVxVy (fieldX op) (fieldY op)
  | .andVxVy _ _, op => .andVxVy (fieldX op) (fieldY op)
  | .xorVxVy _ _, op => .xorVxVy (fieldX op) (fieldY op)
  | .addVxVy _ _, op => .addVxVy (fieldX op) (fieldY op)
  | .subVxVy _ _, op => .subVxVy (fieldX op) (fieldY op)
  | .shrVx _, op => .shrVx (fieldX op)
  | .subnVxVy _ _, op => .subnVxVy (fieldX op) (fieldY op)
  | .shlVx _, op => .shlVx (fieldX op)
  | .sneVxVy _ _, op => .sneVxVy (fieldX op) (fieldY op)
  | .ldINnn _, op => .ldINnn (fieldNnn op)
  | .jpV0Nnn _, op => .jpV0Nnn (fieldNnn op)
  | .rndVxKk _ _, op => .rndVxKk (fieldX op) (fieldKk op)
  | .drwVxVyN _ _ _, op => .drwVxVyN (fieldX op) (fieldY op) (fieldN op)
  | .skpVx _, op => .skpVx (fieldX op)
  | .sknpVx _, op => .sknpVx (fieldX op)
  | .ldVxDt _, op => .ldVxDt (fieldX op)
  | .ldVxK _, op => .ldVxK (fieldX op)
  | .ldDtVx _, op => .ldDtVx (fieldX op)
  | .ldStVx _, op => .ldStVx (fieldX op)
  | .addIVx _, op => .addIVx (fieldX op)
  | .ldFVx _, op => .ldFVx (fieldX op)
  | .ldBVx _, op => .ldBVx (fieldX op)
  | .ldMemVx _, op => .ldMemVx (fieldX op)
  | .ldVxMem _, op => .ldVxMem (fieldX op)

/-! ### The fields that a row fixes -/

section

variable {op m w : Word} (h : op &&& m = w)
include h

theorem extractLsb'_eq_of_and {a n : Nat} (hm : m.extractLsb' a n = BitVec.allOnes n) :
    op.extractLsb' a n = w.extractLsb' a n := by
  rw [← h, BitVec.extractLsb'_and, hm, BitVec.and_allOnes]

theorem fieldPrimary_of_and (hm : fieldPrimary m = BitVec.allOnes 4) :
    fieldPrimary op = fieldPrimary w := extractLsb'_eq_of_and h hm

theorem fieldN_of_and (hm : fieldN m = BitVec.allOnes 4) : fieldN op = fieldN w :=
  extractLsb'_eq_of_and h hm

theorem fieldKk_of_and (hm : fieldKk m = BitVec.allOnes 8) : fieldKk op = fieldKk w :=
  extractLsb'_eq_of_and h hm

end

/-- Every mask of R79 covers the primary code. -/
theorem fieldPrimary_of_row {i : Instr} {op : Word} (h : op &&& tableMask i = tableMatch i) :
    fieldPrimary op = fieldPrimary (tableMatch i) :=
  fieldPrimary_of_and h (by cases i <;> simp [tableMask, fieldPrimary])

/-! ### Decoding a word of a row -/

theorem sys_wf_iff (op : Word) :
    (Instr.sys (fieldNnn op)).wf = true ↔ fieldKk op ≠ 0xE0#8 ∧ fieldKk op ≠ 0xEE#8 := by
  have hl : lowByte (fieldNnn op) = fieldKk op := by simp [lowByte, fieldNnn, fieldKk]
  simp [Instr.wf, hl]

theorem decodeGroup0_of_sys_wf {op : Word} (hw : (Instr.sys (fieldNnn op)).wf = true) :
    decodeGroup0 op = .sys (fieldNnn op) := by
  obtain ⟨hcls, hret⟩ := (sys_wf_iff op).mp hw
  rw [decodeGroup0, if_neg hcls, if_neg hret]

/-- A word that meets a row's mask and match decodes to that row's instruction (R79); in the row of `SYS`
the words of `CLS` and `RET` are left out (R74). -/
theorem decode_of_row {op : Word} (i : Instr) (hw : (readOperands i op).wf = true)
    (h : op &&& tableMask i = tableMatch i) : decode op = .ok (readOperands i op) := by
  rw [decode, fieldPrimary_of_row h]
  cases i <;> dsimp only [tableMask, tableMatch, readOperands] at h hw ⊢
  case sys => exact congrArg Except.ok (decodeGroup0_of_sys_wf hw)
  case cls | ret =>
    show Except.ok (decodeGroup0 op) = _
    rw [decodeGroup0, fieldKk_of_and h rfl]; rfl
  case ldVxVy | orVxVy | andVxVy | xorVxVy | addVxVy | subVxVy | shrVx | subnVxVy | shlVx =>
    show decodeGroup8 op = _
    rw [decodeGroup8, fieldN_of_and h rfl]; rfl
  case skpVx | sknpVx =>
    show decodeGroupE op = _
    rw [decodeGroupE, fieldKk_of_and h rfl]; rfl
  case ldVxDt | ldVxK | ldDtVx | ldStVx | addIVx | ldFVx | ldBVx | ldMemVx | ldVxMem =>
    show decodeGroupF op = _
    rw [decodeGroupF, fieldKk_of_and h rfl]; rfl
  case jp | call | seVxKk | sneVxKk | seVxVy | ldVxKk | addVxKk | sneVxVy | ldINnn | jpV0Nnn | rndVxKk
      | drwVxVyN => rfl

/-- Settles O7: `decode_of_row` for each row. -/
theorem decodeFollowsOpcodeMap : Obligations.DecodeFollowsOpcodeMap := fun op =>
  ⟨fun h hcls hret => decode_of_row (.sys 0) ((sys_wf_iff op).mpr ⟨hcls, hret⟩) h,
    decode_of_row .cls rfl, decode_of_row .ret rfl, decode_of_row (.jp 0) rfl,
    decode_of_row (.call 0) rfl, decode_of_row (.seVxKk 0 0) rfl, decode_of_row (.sneVxKk 0 0) rfl,
    decode_of_row (.seVxVy 0 0) rfl, decode_of_row (.sneVxVy 0 0) rfl,
    decode_of_row (.ldVxKk 0 0) rfl, decode_of_row (.addVxKk 0 0) rfl,
    decode_of_row (.ldVxVy 0 0) rfl, decode_of_row (.orVxVy 0 0) rfl,
    decode_of_row (.andVxVy 0 0) rfl, decode_of_row (.xorVxVy 0 0) rfl,
    decode_of_row (.addVxVy 0 0) rfl, decode_of_row (.subVxVy 0 0) rfl,
    decode_of_row (.subnVxVy 0 0) rfl, decode_of_row (.shrVx 0) rfl, decode_of_row (.shlVx 0) rfl,
    decode_of_row (.ldINnn 0) rfl, decode_of_row (.jpV0Nnn 0) rfl, decode_of_row (.rndVxKk 0 0) rfl,
    decode_of_row (.drwVxVyN 0 0 0) rfl, decode_of_row (.skpVx 0) rfl, decode_of_row (.sknpVx 0) rfl,
    decode_of_row (.ldVxDt 0) rfl, decode_of_row (.ldVxK 0) rfl, decode_of_row (.ldDtVx 0) rfl,
    decode_of_row (.ldStVx 0) rfl, decode_of_row (.addIVx 0) rfl, decode_of_row (.ldFVx 0) rfl,
    decode_of_row (.ldBVx 0) rfl, decode_of_row (.ldMemVx 0) rfl, decode_of_row (.ldVxMem 0) rfl⟩

/-! ### Decoding the encoder's word -/

/-- The encoder's word lies in the row of its instruction (R79). -/
theorem encode_meets_row (i : Instr) : encode i &&& tableMask i = tableMatch i := by
  cases i with
  | sys _ | jp _ | call _ | ldINnn _ | jpV0Nnn _ =>
    exact (Laws.TableRow.formatNnn_primary _ _).trans rfl
  | seVxKk _ _ | sneVxKk _ _ | ldVxKk _ _ | addVxKk _ _ | rndVxKk _ _ =>
    exact (Laws.TableRow.formatXkk_primary _ _ _).trans rfl
  | seVxVy _ _ | sneVxVy _ _ | drwVxVyN _ _ _ =>
    exact (Laws.TableRow.formatXyn_primary _ _ _ _).trans rfl
  | ldVxVy _ _ | orVxVy _ _ | andVxVy _ _ | xorVxVy _ _ | addVxVy _ _ | subVxVy _ _ | shrVx _
  | subnVxVy _ _ | shlVx _ =>
    exact (Laws.TableRow.formatXyn_lowNibble _ _ _ _).trans rfl
  | cls | ret | skpVx _ | sknpVx _ | ldVxDt _ | ldVxK _ | ldDtVx _ | ldStVx _ | addIVx _ | ldFVx _
  | ldBVx _ | ldMemVx _ | ldVxMem _ =>
    exact (Laws.TableRow.formatXkk_lowByte _ _ _).trans rfl

/-- The encoder puts every operand into the field from which its row reads it (R71, R72). -/
theorem readOperands_encode (i : Instr) : readOperands i (encode i) = i := by
  cases i <;> simp [readOperands, encode]

theorem decode_encode {i : Instr} (hw : i.wf = true) : decode (encode i) = .ok i := by
  have hr := readOperands_encode i
  have hd := decode_of_row i (hr.symm ▸ hw) (encode_meets_row i)
  rwa [hr] at hd

theorem decodeBytes_wordBytes_append {op : Word} {i : Instr} (h : decode op = .ok i)
    (rest : List Byte) : decodeBytes (wordBytes op ++ rest) = .ok (i, rest) := by
  simp [decodeBytes, wordBytes, h]

/-- Settles O6: the encoder's word lies in its row, and the row reads the operands back. -/
theorem decodeInvertsEncode : Obligations.DecodeInvertsEncode :=
  fun _ rest hw => ⟨decode_encode hw, decodeBytes_wordBytes_append (decode_encode hw) rest⟩

/-- Settles O9: the decoder, run on the eleven words. -/
theorem specVectorWordsDecode : Obligations.SpecVectorWordsDecode :=
  ⟨rfl, rfl, rfl, rfl, rfl, rfl, rfl, rfl, rfl, rfl, rfl⟩

end Sys2Proof
end

section
/-! PROOF. The illegal words (`30_encoding.md` R80): the decoder rejects them and no others, and reads
well-formed instructions only. -/

namespace Sys2Proof

/-! ### The illegal words by their fields -/

/-- The low nibbles that group 0x8 does not use (R75, R80). -/
def unused8 : List Nibble := [0x8#4, 0x9#4, 0xA#4, 0xB#4, 0xC#4, 0xD#4, 0xF#4]

/-- The low bytes that group 0xE uses (R76, R80). -/
def usedE : List Byte := [0x9E#8, 0xA1#8]

/-- The low bytes that group 0xF uses (R77, R80). -/
def usedF : List Byte :=
  [0x07#8, 0x0A#8, 0x15#8, 0x18#8, 0x1E#8, 0x29#8, 0x33#8, 0x55#8, 0x65#8]

theorem and_low_nibble_mem_iff (op : Word) (l : List Nibble) :
    op &&& 0x000F#16 ∈ l.map (BitVec.setWidth 16) ↔ fieldN op ∈ l := by
  simp only [List.mem_map, eq_comm (b := op &&& 0x000F#16), and_low_nibble_iff, exists_eq_right']

theorem and_low_byte_mem_iff (op : Word) (l : List Byte) :
    op &&& 0x00FF#16 ∈ l.map (BitVec.setWidth 16) ↔ fieldKk op ∈ l := by
  simp only [List.mem_map, eq_comm (b := op &&& 0x00FF#16), and_low_byte_iff, exists_eq_right']

theorem illegalWord_iff (op : Word) : Machine.illegalWord op ↔
    (fieldPrimary op = 0x8#4 ∧ fieldN op ∈ unused8) ∨
      (fieldPrimary op = 0xE#4 ∧ fieldKk op ∉ usedE) ∨
      (fieldPrimary op = 0xF#4 ∧ fieldKk op ∉ usedF) :=
  or_congr (and_congr (and_primary_iff op 0x8#4) (and_low_nibble_mem_iff op unused8))
    (or_congr (and_congr (and_primary_iff op 0xE#4) (not_congr (and_low_byte_mem_iff op usedE)))
      (and_congr (and_primary_iff op 0xF#4) (not_congr (and_low_byte_mem_iff op usedF))))

/-! ### What the decoder answers -/

/-- The answer is an error if the condition holds, else a well-formed instruction. -/
def RejectsExactly (c : Prop) (r : Except DecodeError Instr) : Prop :=
  (c → ∃ e, r = .error e) ∧ (¬ c → ∃ i, r = .ok i ∧ i.wf = true)

theorem rejectsExactly_ok {c : Prop} {i : Instr} (hc : ¬ c) (hw : i.wf = true) :
    RejectsExactly c (.ok i) := ⟨fun h => absurd h hc, fun _ => ⟨i, rfl, hw⟩⟩

theorem rejectsExactly_error {c : Prop} {e : DecodeError} (hc : c) :
    RejectsExactly c (.error e) := ⟨fun _ => ⟨e, rfl⟩, fun h => absurd hc h⟩

theorem decodeGroup0_wf (op : Word) : (decodeGroup0 op).wf = true := by
  rw [decodeGroup0]
  split_ifs with hcls hret
  · rfl
  · rfl
  · exact (sys_wf_iff op).mpr ⟨hcls, hret⟩

theorem mem_unused8_iff : ∀ n : Nibble, n ∈ unused8 ↔
    n ∉ [0x0#4, 0x1#4, 0x2#4, 0x3#4, 0x4#4, 0x5#4, 0x6#4, 0x7#4, 0xE#4] := by decide

theorem decodeGroup8_rejectsExactly (op : Word) :
    RejectsExactly (fieldN op ∈ unused8) (decodeGroup8 op) := by
  rw [decodeGroup8, mem_unused8_iff]
  iterate 9
    split
    · exact rejectsExactly_ok (by simp [*]) rfl
  exact rejectsExactly_error (by simp [*])

theorem decodeGroupE_rejectsExactly (op : Word) :
    RejectsExactly (fieldKk op ∉ usedE) (decodeGroupE op) := by
  rw [decodeGroupE]
  iterate 2
    split
    · exact rejectsExactly_ok (by simp [usedE, *]) rfl
  exact rejectsExactly_error (by simp [usedE, *])

theorem decodeGroupF_rejectsExactly (op : Word) :
    RejectsExactly (fieldKk op ∉ usedF) (decodeGroupF op) := by
  rw [decodeGroupF]
  iterate 9
    split
    · exact rejectsExactly_ok (by simp [usedF, *]) rfl
  exact rejectsExactly_error (by simp [usedF, *])

/-- Only groups 0x8, 0xE and 0xF have illegal words. -/
theorem decode_rejectsExactly (op : Word) : RejectsExactly (Machine.illegalWord op) (decode op) := by
  rw [illegalWord_iff]
  unfold decode
  split
  case h_1 hp => exact rejectsExactly_ok (by simp [BitVec.toNat_eq, hp]) (decodeGroup0_wf op)
  case h_9 hp =>
    have hp : fieldPrimary op = 0x8#4 := BitVec.eq_of_toNat_eq hp
    simpa [hp] using decodeGroup8_rejectsExactly op
  case h_15 hp =>
    have hp : fieldPrimary op = 0xE#4 := BitVec.eq_of_toNat_eq hp
    simpa [hp] using decodeGroupE_rejectsExactly op
  case h_16 =>
    simp only [imp_false] at *
    have hp : fieldPrimary op = 0xF#4 := by bv_omega
    simpa [hp] using decodeGroupF_rejectsExactly op
  all_goals
    rename_i hp
    exact rejectsExactly_ok (by simp [BitVec.toNat_eq, hp]) rfl

/-- Settles O8: the decoder, group by group. -/
theorem exactlyIllegalWordsAreRejected : Obligations.ExactlyIllegalWordsAreRejected :=
  decode_rejectsExactly

end Sys2Proof
end

section
/-! PROOF. The driver's samples reach only the instructions that read them (`40_engine_step.md` R93, R97,
R98): every other instruction commutes with changing them. -/

namespace Sys2Proof.Machine

/-! ### The stack, the key skips and `RND` -/

theorem execRet_withInputs (s : State) (l : List Sample) (n : Nat) :
    execRet (s.withInputs l n) = mapState (fun t => t.withInputs l n) (execRet s) := by
  unfold execRet
  rcases Nat.eq_zero_or_pos s.sp.val with h | h
  · rw [pop_of_empty h, pop_of_empty (s := s.withInputs l n) h]; rfl
  · rw [pop_of_pos h, pop_of_pos (s := s.withInputs l n) h]; rfl

theorem execCall_withInputs (nnn : Addr12) (s : State) (l : List Sample) (n : Nat) :
    execCall nnn (s.withInputs l n) =
      mapState (fun t => t.withInputs l n) (execCall nnn s) := by
  unfold execCall
  rcases Nat.lt_or_ge s.sp.val 16 with h | h
  · rw [push_of_lt h, push_of_lt (s := s.withInputs l n) h]; rfl
  · have h16 : s.sp.val = 16 := by omega
    rw [push_of_full h16, push_of_full (s := s.withInputs l n) h16]; rfl

theorem skipOnKey_withInputs (x : Reg) (p : Bool) {s : State} {l : List Sample} {n : Nat}
    (hk : (s.withInputs l n).keys = s.keys) :
    skipOnKey x p (s.withInputs l n) = mapState (fun t => t.withInputs l n) (skipOnKey x p s) := by
  have hd : (s.withInputs l n).keyDown (s.getV x).toNat = s.keyDown (s.getV x).toNat := by
    rw [State.keyDown, hk, State.keyDown]
  rcases Nat.lt_or_ge 15 (s.getV x).toNat with h | h
  · rw [skipOnKey_of_gt h, skipOnKey_of_gt (s := s.withInputs l n) h]; rfl
  · rw [skipOnKey_of_le h, skipOnKey_of_le (s := s.withInputs l n) h, ← hd]; rfl

theorem execRndVxKk_withInputs (x : Reg) (kk : Byte) {s : State} {l : List Sample} {n : Nat}
    (hr : (s.withInputs l n).rnd = s.rnd) :
    execRndVxKk x kk (s.withInputs l n) =
      mapState (fun t => t.withInputs l n) (execRndVxKk x kk s) := by
  rw [execRndVxKk, hr]; rfl

/-! ### Instructions -/

/-- Other samples change no result, as long as an instruction that reads `rnd` or `keys` reads the same
(`40_engine_step.md` R97, R98). -/
theorem exec_withInputs (i : Instr) {s : State} {l : List Sample} {n : Nat}
    (hr : (∀ x kk, i ≠ .rndVxKk x kk) ∨ (s.withInputs l n).rnd = s.rnd)
    (hk : (∀ x, i ≠ .skpVx x ∧ i ≠ .sknpVx x ∧ i ≠ .ldVxK x) ∨ (s.withInputs l n).keys = s.keys) :
    exec i (s.withInputs l n) = mapState (fun t => t.withInputs l n) (exec i s) := by
  cases i with
  | rndVxKk x kk => exact execRndVxKk_withInputs x kk (hr.resolve_left fun h => h x kk rfl)
  | skpVx x => exact skipOnKey_withInputs x true (hk.resolve_left fun h => (h x).1 rfl)
  | sknpVx x => exact skipOnKey_withInputs x false (hk.resolve_left fun h => (h x).2.1 rfl)
  | ldVxK x =>
    exact congrArg _ (keyWait_withInputs x s l n (hk.resolve_left fun h => (h x).2.2 rfl))
  | ret => exact execRet_withInputs s l n
  | call nnn => exact execCall_withInputs nnn s l n
  | drwVxVyN x y m => exact drawRows_withInputs _ _ 0 m.toNat (s.setFlag false) l n
  | ldBVx _ | ldMemVx _ => exact storeBytes_withInputs _ _ s l n
  | ldVxMem _ => exact loadRegs_withInputs _ _ s l n
  | _ => rfl

/-- Settles O23: in each clause one of the two inputs is not read and the other is the same. -/
theorem inputsReachOnlyTheirInstructions : Obligations.InputsReachOnlyTheirInstructions :=
  fun i _ _ _ => ⟨fun hr hk => exec_withInputs i (.inl hr) (.inr hk),
    fun hk hr => exec_withInputs i (.inr hr) (.inl hk)⟩

end Sys2Proof.Machine
end

section
/-! PROOF. The step (`40_engine_step.md` R90 to R96): the decoded instruction and the tick, a fetch
outside memory, and that every step completes or faults. -/

namespace Sys2Proof.Machine

/-! ### The running step -/

/-- Settles O10: the advanced state is the one the fetch hands on, and the end of the step is the tick
and the used-up sample. -/
theorem stepRunsTheDecodedInstruction : Obligations.StepRunsTheDecodedInstruction := by
  intro s i hm hp hd
  have hstep : step s = finish (exec i s.advance) := step_of_decode hm hp hd
  refine ⟨fun t ht => ?_, fun f hf => ?_⟩
  · have ht : exec i s.advance = .next t := ht
    rw [hstep, ht, finish_next]
    rfl
  · have hf : exec i s.advance = .fault f := hf
    rw [hstep, hf, finish_fault]

/-- Settles O11: the first of the two bytes that lies outside is the fault's. -/
theorem fetchOutOfRangeFaults : Obligations.FetchOutOfRangeFaults := by
  refine fun s hm => ⟨fun h => ?_, fun h => ?_⟩
  · rw [step_of_fetch_fault hm (Nat.le_of_succ_le h), Nat.max_eq_left h]
  · rw [step_of_fetch_fault hm h.ge, h]
    rfl

/-! ### Every answer is a state or a fault -/

/-- The answer is a next state or a fault, in the terms of `Obligations.StepCompletesOrFaults`. -/
def CompletesOrFaults (r : Result) : Prop := (∃ t, r = .next t) ∨ ∃ f, r = .fault f

theorem completesOrFaults_next (t : State) : CompletesOrFaults (.next t) := .inl ⟨t, rfl⟩

theorem completesOrFaults_fault (f : Fault) : CompletesOrFaults (.fault f) := .inr ⟨f, rfl⟩

/-- A checked answer lets a state through or faults. -/
theorem completesOrFaults_ite (c : Prop) [Decidable c] (t : State) (f : Fault) :
    CompletesOrFaults (if c then .next t else .fault f) := by
  split
  · exact completesOrFaults_next t
  · exact completesOrFaults_fault f

theorem completesOrFaults_finish {r : Result} (h : CompletesOrFaults r) :
    CompletesOrFaults (finish r) := by
  rcases h with ⟨t, rfl⟩ | ⟨f, rfl⟩
  · exact completesOrFaults_next t.endStep
  · exact completesOrFaults_fault f

theorem storeBytes_completesOrFaults (a : Nat) (bs : List Byte) (s : State) :
    CompletesOrFaults (storeBytes a bs s) := by
  obtain ⟨t, ht, -⟩ := storeBytes_spec bs a s
  exact ht ▸ completesOrFaults_ite _ t _

theorem exec_completesOrFaults (i : Instr) (s : State) : CompletesOrFaults (exec i s) := by
  cases i with
  | ret =>
    show CompletesOrFaults (execRet s)
    rcases Nat.eq_zero_or_pos s.sp.val with h | h
    · rw [execRet, pop_of_empty h]; exact completesOrFaults_fault _
    · rw [execRet, pop_of_pos h]; exact completesOrFaults_next _
  | call nnn =>
    show CompletesOrFaults (execCall nnn s)
    rcases Nat.lt_or_ge s.sp.val 16 with h | h
    · rw [execCall, push_of_lt h]; exact completesOrFaults_next _
    · rw [execCall, push_of_full (by omega)]; exact completesOrFaults_fault _
  | skpVx x | sknpVx x =>
    rcases Nat.lt_or_ge 15 (s.getV x).toNat with h | h
    · exact .inr ⟨_, skipOnKey_of_gt h _⟩
    · exact .inl ⟨_, skipOnKey_of_le h _⟩
  | drwVxVyN x y n =>
    obtain ⟨t, ht, -⟩ := drawRows_spec ((s.getV x).toNat % 64) ((s.getV y).toNat % 32) 0 n.toNat
      (by omega) (s.setFlag false)
    show CompletesOrFaults (execDrwVxVyN x y n s)
    rw [execDrwVxVyN, ht]
    exact completesOrFaults_ite _ t _
  | ldBVx _ | ldMemVx _ => exact storeBytes_completesOrFaults _ _ s
  | ldVxMem x =>
    obtain ⟨t, ht, -⟩ := loadRegs_spec (regsUpTo x) (nodup_regsUpTo x) (s.addr 0) s
    show CompletesOrFaults (loadRegs (s.addr 0) (regsUpTo x) s)
    exact ht ▸ completesOrFaults_ite _ t _
  | _ => exact completesOrFaults_next _

/-- Settles O18: neither a wait, nor a fetch, nor decode, nor an instruction refuses. -/
theorem stepCompletesOrFaults : Obligations.StepCompletesOrFaults := by
  intro s
  show CompletesOrFaults (step s)
  cases hm : s.mode with
  | awaitingKey x => exact .inl ⟨_, step_of_waiting hm⟩
  | running =>
    rcases Nat.lt_or_ge (s.pc.toNat + 1) 4096 with hp | hp
    · cases hd : decode (s.wordAt s.pc.toNat) with
      | ok i =>
        rw [step_of_decode hm hp hd]
        exact completesOrFaults_finish (exec_completesOrFaults i s.advance)
      | error e => exact .inr ⟨_, step_of_illegal hm hp hd⟩
    · exact .inr ⟨_, step_of_fetch_fault hm (Nat.le_of_succ_le_succ hp)⟩

end Sys2Proof.Machine
end

section
/-! PROOF. The step of a waiting engine (`40_engine_step.md` R95, `45_keypad_timers_random.md` R168). -/

namespace Sys2Proof.Machine

/-! ### No key -/

theorem State.setMode_eq_self {s : State} {m : Mode} (h : s.mode = m) : s.setMode m = s := by
  subst h; rfl

/-- A wait that finds no key changes at most the timers. -/
theorem changesOnly_keyWait_of_none {x : Reg} {s : State} (hm : s.mode = .awaitingKey x)
    (hk : s.keys = 0#16) : changesOnly [.delay, .sound] s (keyWait x s) := by
  rw [keyWait, keyWaitWith_of_none _ x hk, State.setMode_eq_self hm]
  split
  · exact changesOnly_refl _ s
  · exact changesOnly_tick s

/-! ### The least key -/

theorem leastKey_unique {keys : Word} {j k : Nibble}
    (hj : keys.getLsbD j.toNat = true) (hjl : ∀ m, m < j.toNat → keys.getLsbD m = false)
    (hk : keys.getLsbD k.toNat = true) (hkl : ∀ m, m < k.toNat → keys.getLsbD m = false) :
    j = k := by
  rcases Nat.lt_trichotomy j.toNat k.toNat with h | h | h
  · exact absurd hj (by simp [hkl _ h])
  · exact BitVec.eq_of_toNat_eq h
  · exact absurd hk (by simp [hjl _ h])

/-- `KeyWait` when `k` is the least pressed key. -/
theorem keyWaitWith_of_least (e : Config.KeyWaitExtraTick) (x : Reg) {s : State} {k : Nibble}
    (hk : s.keys.getLsbD k.toNat = true) (hl : ∀ j, j < k.toNat → s.keys.getLsbD j = false) :
    keyWaitWith e x s =
      if e = .always then ((s.setV x (k.setWidth 8)).setMode .running).tick
      else (s.setV x (k.setWidth 8)).setMode .running := by
  have h0 : s.keys ≠ 0#16 := fun h => by simp [h] at hk
  obtain ⟨j, hj, hjl, h⟩ := keyWaitWith_of_some e x h0
  rw [h, leastKey_unique hj hjl hk hl]

/-- A wait that finds a key stores the least one and ends. -/
theorem keyWait_of_least (x : Reg) {s : State} {k : Nibble}
    (hk : s.keys.getLsbD k.toNat = true) (hl : ∀ j, j < k.toNat → s.keys.getLsbD j = false) :
    (keyWait x s).getV x = k.setWidth 8 ∧ (keyWait x s).mode = .running := by
  rw [keyWait, keyWaitWith_of_least _ x hk hl]
  split <;> simp

/-- Settles O13: the step is the key wait and the end of the step. -/
theorem waitingStepChecksKeys : Obligations.WaitingStepChecksKeys := by
  intro s x hm
  have hstep : step s = .next (keyWait x s).endStep := step_of_waiting hm
  obtain ⟨hdt, hst⟩ := keyWait_endStep_timers x s
  refine ⟨fun h0 => ⟨_, hstep, hdt, hst, ?_⟩, fun k hk hl => ?_⟩
  · exact ((changesOnly_keyWait_of_none hm h0).trans (changesOnly_endStep _)).mono (by simp)
  · obtain ⟨hv, hrun⟩ := keyWait_of_least x hk hl
    obtain ⟨hf, hregs⟩ := changesOnly_keyWait x s
    refine ⟨_, hstep, ?_, hrun, hdt, hst, (hf.trans (changesOnly_endStep _)).mono (by simp), hregs⟩
    rw [State.endStep_getV, hv, BitVec.toNat_setWidth_of_le (by decide)]

end Sys2Proof.Machine
end

section
/-! PROOF. Control flow (`41_control_flow.md`): what each jump, call, return and skip answers and leaves
unchanged, and that a `RET` undoes a `CALL`. -/

namespace Sys2Proof.Machine

/-! ### Jumps -/

@[simp] theorem target_toNat (nnn : Addr12) : (target nnn).toNat = nnn.toNat :=
  BitVec.toNat_setWidth_of_le (by decide)

@[simp] theorem State.getVWord_toNat (s : State) (x : Reg) : (s.getVWord x).toNat = (s.getV x).toNat :=
  BitVec.toNat_setWidth_of_le (by decide)

/-- The target of `JP V0, nnn` fits 16 bits (`41_control_flow.md` R109). -/
theorem target_add_getVWord_toNat (nnn : Addr12) (s : State) (x : Reg) :
    (target nnn + s.getVWord x).toNat = nnn.toNat + (s.getV x).toNat := by
  have hn := nnn.isLt
  have hx := (s.getV x).isLt
  rw [BitVec.toNat_add, target_toNat, State.getVWord_toNat, Nat.mod_eq_of_lt (by omega)]

/-- Settles O26: both jumps are `setPc`, and no word can be fetched at 0xFFF. -/
theorem jumpsSetTheProgramCounter : Obligations.JumpsSetTheProgramCounter := by
  intro nnn s
  refine ⟨fun hcls hret => decode_encode (i := .sys nnn) (by simp [Instr.wf, hcls, hret]),
    decode_encode (i := .jp nnn) rfl, ⟨_, rfl, target_toNat nnn, changesOnly_setPc s _⟩,
    ⟨_, rfl, target_toNat nnn, changesOnly_setPc s _⟩, ?_⟩
  rintro rfl u hm hpc
  have hpc : u.pc.toNat = 4095 := hpc
  simpa [hpc] using step_of_fetch_fault hm hpc.ge

/-- Settles O27: the sum stays below 2^16, so no bit of it is lost. -/
theorem jumpWithOffsetAddsV0 : Obligations.JumpWithOffsetAddsV0 := fun nnn s =>
  ⟨decode_encode (i := .jpV0Nnn nnn) rfl,
    ⟨_, rfl, target_add_getVWord_toNat nnn s 0x0#4, changesOnly_setPc s _⟩,
    fun h _ hm hpc => step_of_fetch_fault hm (hpc ▸ h)⟩

/-! ### Call and return -/

theorem execCall_of_lt (nnn : Addr12) {s : State} (h : s.sp.val < 16) :
    execCall nnn s = .next { s with
      stack := s.stack.set s.sp.val s.pc, sp := ⟨s.sp.val + 1, by omega⟩, pc := target nnn } := by
  rw [execCall, push_of_lt h]; rfl

theorem execCall_of_full (nnn : Addr12) {s : State} (h : s.sp.val = 16) :
    execCall nnn s = .fault (.stackOverflow s) := by
  rw [execCall, push_of_full h]

theorem execRet_of_top {s : State} {k : Fin 16} (h : s.sp.val = k.val + 1) :
    execRet s = .next { s with sp := k.castSucc, pc := s.stackAt k } := by
  rw [execRet, pop_of_pos (by omega)]
  simp only [h, Nat.add_sub_cancel]
  rfl

theorem execRet_of_empty {s : State} (h : s.sp.val = 0) :
    execRet s = .fault (.stackUnderflow s) := by
  rw [execRet, pop_of_empty h]

/-- Settles O28: `push` in its two cases. -/
theorem callPushesAndJumps : Obligations.CallPushesAndJumps := by
  intro nnn s
  refine ⟨decode_encode (i := .call nnn) rfl, fun h => ?_, execCall_of_full nnn⟩
  refine ⟨_, execCall_of_lt nnn h, target_toNat nnn, rfl, fun k => ?_, changesOnly_pcStack s _ _ _⟩
  simp [State.stackAt, Vector.getElem_set, eq_comm]

/-- Settles O29: `pop` in its two cases. -/
theorem returnPopsTheTopEntry : Obligations.ReturnPopsTheTopEntry := fun s =>
  ⟨decode_encode (i := .ret) rfl,
    fun _ h => ⟨_, execRet_of_top h, rfl, rfl, fun _ => rfl, changesOnly_pcStack s _ _ _⟩,
    execRet_of_empty⟩

/-- Settles O30: the top entry that the `RET` pops is the one that the `CALL` pushed, and the `CALL`
wrote no entry below it. -/
theorem returnUndoesCall : Obligations.ReturnUndoesCall := by
  intro nnn s t u hcall hkeep
  obtain ⟨hsp, hstack⟩ := hkeep
  obtain ⟨-, hpush, hfull⟩ := callPushesAndJumps nnn s
  have hlt : s.sp.val < 16 := by
    by_contra hn
    rw [hfull (by omega)] at hcall; cases hcall
  obtain ⟨t', ht', -, htsp, htstack, -⟩ := hpush hlt
  obtain rfl := Host.Outcome.next.inj (ht'.symm.trans hcall)
  obtain ⟨-, hpop, -⟩ := returnPopsTheTopEntry u
  obtain ⟨w, hret, hpc, hwsp, hwstack, hframe⟩ := hpop ⟨s.sp.val, hlt⟩ (by rw [hsp, htsp])
  refine ⟨w, hret, ?_, Fin.ext hwsp, fun k hk => ?_, hframe⟩
  · rw [hpc, hstack, htstack, if_pos rfl]
  · rw [hwstack, hstack, htstack, if_neg hk.ne]

/-! ### Skips -/

/-- The masks of the two rows leave the low nibble open (`30_encoding.md` R78). -/
theorem decode_registerSkips (x y n : Nibble) :
    decode (formatXyn 0x5#4 x y n) = .ok (.seVxVy x y) ∧
      decode (formatXyn 0x9#4 x y n) = .ok (.sneVxVy x y) := by
  have hse := decode_of_row (.seVxVy 0 0) rfl (Laws.TableRow.formatXyn_primary 0x5#4 x y n)
  have hsne := decode_of_row (.sneVxVy 0 0) rfl (Laws.TableRow.formatXyn_primary 0x9#4 x y n)
  simpa [readOperands] using And.intro hse hsne

theorem State.skipIf_pc_of_iff {c : Bool} {p : Prop} [Decidable p] (h : c = true ↔ p) (s : State) :
    (s.skipIf c).pc = if p then s.pc + 2#16 else s.pc := by
  simp [h]

/-- Settles O31: both are `skipIf` of their condition. -/
theorem skipsOnImmediate : Obligations.SkipsOnImmediate := fun x kk s =>
  ⟨decode_encode (i := .seVxKk x kk) rfl, decode_encode (i := .sneVxKk x kk) rfl,
    ⟨_, rfl, State.skipIf_pc_of_iff beq_iff_eq s, changesOnly_skipIf s _⟩,
    ⟨_, rfl, State.skipIf_pc_of_iff bne_iff_ne s, changesOnly_skipIf s _⟩⟩

/-- Settles O32: both are `skipIf` of their condition, and their rows leave the low nibble open. -/
theorem skipsOnRegisters : Obligations.SkipsOnRegisters := fun x y s =>
  ⟨decode_registerSkips x y,
    ⟨_, rfl, State.skipIf_pc_of_iff beq_iff_eq s, changesOnly_skipIf s _⟩,
    ⟨_, rfl, State.skipIf_pc_of_iff bne_iff_ne s, changesOnly_skipIf s _⟩⟩

end Sys2Proof.Machine
end

section
/-! PROOF. Arithmetic and logic (`42_alu.md`): each instruction reads its operands, writes its result by
`setV`, and where it has a flag writes both in one of the two orders of R120. -/

namespace Sys2Proof.Machine

/-! ### What the two write orders leave -/

/-- Flag first, result second: the result stands for every `x`, the flag unless `x = 15`. -/
theorem flagThenResult_writes (s : State) (x : Reg) {b : Byte} {c : Bool} {m f : Nat}
    (hb : b.toNat = m) (hc : (flagByte c).toNat = f) :
    ((s.flagThenResult x b c).getV x).toNat = m ∧
      (x ≠ 0xF#4 → ((s.flagThenResult x b c).getV 0xF#4).toNat = f) ∧
      changesOnlyRegs [x, 0xF#4] s (s.flagThenResult x b c) := by
  refine ⟨?_, fun hx => ?_, changesOnlyRegs_flagThenResult s x b c⟩
  · rw [State.getV_flagThenResult, if_pos rfl, hb]
  · rw [State.getV_flagThenResult, if_neg hx.symm, if_pos (show 0xF#4 = vf from rfl), hc]

/-- Result first, flag second: the flag stands for every `x`, the result unless `x = 15`. -/
theorem resultThenFlag_writes (s : State) (x : Reg) {b : Byte} {c : Bool} {m f : Nat}
    (hb : b.toNat = m) (hc : (flagByte c).toNat = f) :
    (x ≠ 0xF#4 → ((s.resultThenFlag x b c).getV x).toNat = m) ∧
      ((s.resultThenFlag x b c).getV 0xF#4).toNat = f ∧
      changesOnlyRegs [x, 0xF#4] s (s.resultThenFlag x b c) := by
  refine ⟨fun hx => ?_, ?_, changesOnlyRegs_resultThenFlag s x b c⟩
  · rw [State.getV_resultThenFlag, if_neg (show x ≠ vf from hx), if_pos rfl, hb]
  · rw [State.getV_resultThenFlag, if_pos (show 0xF#4 = vf from rfl), hc]

/-! ### Results and flags as numbers -/

theorem flagByte_toNat (c : Bool) : (flagByte c).toNat = c.toNat := by cases c <;> rfl

theorem carryOut_toNat (a b : Byte) :
    (flagByte (carryOut a b)).toNat = if 255 < a.toNat + b.toNat then 1 else 0 := by
  rw [flagByte_toNat, carryOut, Bool.toNat, Bool.cond_decide]

theorem strictlyGreater_toNat (a b : Byte) :
    (flagByte (strictlyGreater a b)).toNat = if b.toNat < a.toNat then 1 else 0 := by
  rw [flagByte_toNat, strictlyGreater, Bool.toNat, Bool.cond_decide]

theorem oldBit0_toNat (a : Byte) : (flagByte (oldBit0 a)).toNat = a.toNat % 2 := by
  rw [flagByte_toNat, oldBit0, BitVec.getLsbD, Nat.toNat_testBit, pow_zero, Nat.div_one]

/-- Bit 7 is the highest bit of a byte. -/
theorem oldBit7_toNat (a : Byte) : (flagByte (oldBit7 a)).toNat = a.toNat / 128 := by
  have ha := a.isLt
  rw [flagByte_toNat, oldBit7, BitVec.getLsbD, Nat.toNat_testBit]
  omega

/-- The difference modulo 256, with the 256 added before the subtraction (`42_alu.md` R128, R130). -/
theorem byte_sub_toNat (a b : Byte) : (a - b).toNat = (a.toNat + 256 - b.toNat) % 256 := by
  have hb := b.isLt
  rw [BitVec.toNat_sub]
  omega

theorem byte_shiftRight_one_toNat (a : Byte) : (a >>> 1).toNat = a.toNat / 2 := by
  rw [BitVec.toNat_ushiftRight, Nat.shiftRight_one]

theorem byte_shiftLeft_one_toNat (a : Byte) : (a <<< 1).toNat = a.toNat * 2 % 256 := by
  rw [BitVec.toNat_shiftLeft, Nat.shiftLeft_eq, pow_one]

/-! ### Loads, and the operations without a flag -/

/-- Settles O33: both loads are `setV`. -/
theorem registerLoads : Obligations.RegisterLoads := fun x y kk s =>
  ⟨decode_encode (i := .ldVxKk x kk) rfl, decode_encode (i := .ldVxVy x y) rfl,
    ⟨_, rfl, State.getV_setV_self s x kk, changesOnlyRegs_setV s x _⟩,
    ⟨_, rfl, State.getV_setV_self s x _, changesOnlyRegs_setV s x _⟩⟩

/-- Settles O34: `setV` of the sum of two bytes. -/
theorem addImmediateWrapsWithoutFlag : Obligations.AddImmediateWrapsWithoutFlag := by
  intro x kk s
  refine ⟨decode_encode (i := .addVxKk x kk) rfl, _, rfl, ?_, changesOnlyRegs_setV s x _⟩
  rw [State.getV_setV_self, BitVec.toNat_add]

/-- Settles O35: `setV` of the bitwise operation. -/
theorem bitwiseOperationsWriteNoFlag : Obligations.BitwiseOperationsWriteNoFlag := by
  intro x y s
  refine ⟨decode_encode (i := .orVxVy x y) rfl, decode_encode (i := .andVxVy x y) rfl,
    decode_encode (i := .xorVxVy x y) rfl, ⟨_, rfl, changesOnlyRegs_setV s x _, fun k => ?_⟩,
    ⟨_, rfl, changesOnlyRegs_setV s x _, fun k => ?_⟩, ⟨_, rfl, changesOnlyRegs_setV s x _, fun k => ?_⟩⟩
  · rw [State.getV_setV_self, BitVec.getLsbD_or]
  · rw [State.getV_setV_self, BitVec.getLsbD_and]
  · rw [State.getV_setV_self, BitVec.getLsbD_xor]

/-! ### The operations with a flag -/

/-- Settles O36: the sum, then the carry. -/
theorem addWritesSumThenCarry : Obligations.AddWritesSumThenCarry := fun x y s =>
  ⟨decode_encode (i := .addVxVy x y) rfl, _, rfl,
    resultThenFlag_writes s x (BitVec.toNat_add _ _) (carryOut_toNat _ _)⟩

/-- Settles O37: both write the comparison, then the difference, with the operands exchanged. -/
theorem subtractionsWriteFlagThenDifference : Obligations.SubtractionsWriteFlagThenDifference :=
  fun x y s =>
  ⟨decode_encode (i := .subVxVy x y) rfl, decode_encode (i := .subnVxVy x y) rfl,
    ⟨_, rfl, flagThenResult_writes s x (byte_sub_toNat _ _) (strictlyGreater_toNat _ _)⟩,
    ⟨_, rfl, flagThenResult_writes s x (byte_sub_toNat _ _) (strictlyGreater_toNat _ _)⟩⟩

/-- The rows of the shifts fix the low nibble and leave the `y` field open (`30_encoding.md` R79, R82). -/
theorem decode_shifts (x : Reg) (y : Nibble) :
    decode (formatXyn 0x8#4 x y 0x6#4) = .ok (.shrVx x) ∧
      decode (formatXyn 0x8#4 x y 0xE#4) = .ok (.shlVx x) := by
  have hshr := decode_of_row (.shrVx 0) rfl (Laws.TableRow.formatXyn_lowNibble 0x8#4 x y 0x6#4)
  have hshl := decode_of_row (.shlVx 0) rfl (Laws.TableRow.formatXyn_lowNibble 0x8#4 x y 0xE#4)
  simpa [readOperands] using And.intro hshr hshl

/-- Settles O38: both write the bit shifted out, then the shifted value, and their rows leave `y` open. -/
theorem shiftsWriteBitThenResult : Obligations.ShiftsWriteBitThenResult := fun x s =>
  ⟨decode_shifts x,
    ⟨_, rfl, flagThenResult_writes s x (byte_shiftRight_one_toNat _) (oldBit0_toNat _)⟩,
    ⟨_, rfl, flagThenResult_writes s x (byte_shiftLeft_one_toNat _) (oldBit7_toNat _)⟩⟩

end Sys2Proof.Machine
end

section
/-! PROOF. Index register and memory (`43_index_memory.md`): three instructions are `setI`; the stores and
the load move consecutive bytes at `I`, and complete or fault as the last address lies inside or outside
the address space. -/

namespace Sys2Proof.Machine

/-! ### The instructions that write `I` -/

/-- Settles O39: both are `setI`, and the sum of two words is reduced modulo 65536. -/
theorem indexLoadAndAdd : Obligations.IndexLoadAndAdd := by
  intro nnn x s
  refine ⟨decode_encode (i := .ldINnn nnn) rfl, decode_encode (i := .addIVx x) rfl,
    ⟨_, rfl, target_toNat nnn, changesOnly_setI s _⟩, ⟨_, rfl, ?_, changesOnly_setI s _⟩⟩
  rw [State.setI_i, BitVec.toNat_add, State.getVWord_toNat]

/-- No admissible `FONT_START` takes a glyph address beyond 16 bits. -/
theorem glyphAddr_toNat (s : State) (v : Byte) :
    (s.glyphAddr v).toNat = s.fontStart + 5 * v.toNat := by
  have hf : s.fontStart < 434 := s.params.fontStart.isLt
  have hv := v.isLt
  rw [State.glyphAddr, BitVec.toNat_ofNat, Nat.mod_eq_of_lt (by omega)]

/-- Settles O40: `setI` of the glyph address. -/
theorem fontAddressIsFiveTimesTheDigit : Obligations.FontAddressIsFiveTimesTheDigit := fun x s =>
  ⟨decode_encode (i := .ldFVx x) rfl, _, rfl, glyphAddr_toNat s _, changesOnly_setI s _⟩

/-! ### The stores -/

/-- A store inside the address space completes. -/
theorem storeBytes_of_le {a : Nat} {bs : List Byte} (h : a + bs.length ≤ 4096) (s : State) :
    ∃ t, storeBytes a bs s = .next t ∧ (∀ k (hk : k < bs.length), t.byteAt (a + k) = bs[k]) ∧
      sameBytesOutside a bs.length s t ∧ changesOnly [.memory] s t := by
  obtain ⟨t, ht, hs, -, hb, ho⟩ := storeBytes_spec bs a s
  rw [if_pos (.inr h)] at ht
  exact ⟨t, ht, fun k hk => hb k hk (by omega), fun p hp => ho p (hp.imp_right .inl),
    changesOnly_of_mem hs⟩

/-- A store that ends outside the address space faults at its first address outside, the bytes before it
stored (`20_memory.md` R52, `60_exceptions.md` R176). -/
theorem storeBytes_of_gt {a : Nat} {bs : List Byte} (hne : bs ≠ []) (h : 4096 < a + bs.length)
    (s : State) :
    ∃ t, storeBytes a bs s = .fault (.addressOutOfRange (max a 4096) t) ∧
      (∀ k (hk : k < bs.length), a + k < 4096 → t.byteAt (a + k) = bs[k]) ∧
      (∀ p, p < a ∨ 4096 ≤ p → t.byteAt p = s.byteAt p) ∧ changesOnly [.memory] s t := by
  obtain ⟨t, ht, hs, -, hb, ho⟩ := storeBytes_spec bs a s
  rw [if_neg (not_or.mpr ⟨hne, Nat.not_le.mpr h⟩)] at ht
  exact ⟨t, ht, hb, fun p hp => ho p (hp.imp_right .inr), changesOnly_of_mem hs⟩

/-- The decimal digits of a byte, hundreds first; each fits a byte (`43_index_memory.md` R144). -/
theorem bcdDigits_toNat (v : Byte) {k : Nat} (hk : k < (bcdDigits v).length) :
    (bcdDigits v)[k].toNat =
      if k = 0 then v.toNat / 100 else if k = 1 then v.toNat / 10 % 10 else v.toNat % 10 := by
  have hv := v.isLt
  have hk3 : k < 3 := hk
  interval_cases k <;> simp [bcdDigits] <;> omega

/-- Settles O41: the store of the three digits at `I`, in its two cases. -/
theorem bcdStoresThreeDigits : Obligations.BcdStoresThreeDigits := by
  intro x s digit
  refine ⟨decode_encode (i := .ldBVx x) rfl, fun h => ?_, fun h => ?_⟩
  · obtain ⟨t, ht, hb, ho, hf⟩ := storeBytes_of_le (bs := bcdDigits (s.getV x)) h s
    exact ⟨t, ht, fun k hk => (congrArg BitVec.toNat (hb k hk)).trans (bcdDigits_toNat _ hk),
      ho, hf⟩
  · obtain ⟨t, ht, hb, ho, hf⟩ :=
      storeBytes_of_gt (bs := bcdDigits (s.getV x)) (List.cons_ne_nil _ _) (Nat.lt_succ_of_le h) s
    exact ⟨t, ht,
      fun k hk hlt => (congrArg BitVec.toNat (hb k hk hlt)).trans (bcdDigits_toNat _ hk), ho, hf⟩

/-- Byte `k` that `LD [I], Vx` stores is `V[k]` (`43_index_memory.md` R145). -/
theorem getElem_map_regsUpTo {x k : Reg} (f : Reg → Byte)
    (hk : k.toNat < ((regsUpTo x).map f).length) : ((regsUpTo x).map f)[k.toNat] = f k := by
  simp [getElem_regsUpTo]

/-- Settles O42: the store of `V0` to `Vx` at `I`, in its two cases. -/
theorem storeRegistersWritesConsecutiveBytes : Obligations.StoreRegistersWritesConsecutiveBytes := by
  intro x s
  have hlen : ((regsUpTo x).map s.getV).length = x.toNat + 1 := by simp
  refine ⟨decode_encode (i := .ldMemVx x) rfl, fun h => ?_, fun h => ?_⟩
  · obtain ⟨t, ht, hb, ho, hf⟩ :=
      storeBytes_of_le (a := s.i.toNat) (bs := (regsUpTo x).map s.getV) (by omega) s
    exact ⟨t, ht, fun k hk => (hb _ (by omega)).trans (getElem_map_regsUpTo _ _), hlen ▸ ho, hf⟩
  · obtain ⟨t, ht, hb, ho, hf⟩ := storeBytes_of_gt (a := s.i.toNat) (bs := (regsUpTo x).map s.getV)
      (List.map_eq_nil_iff.not.mpr (regsUpTo_ne_nil x)) (by omega) s
    exact ⟨t, ht, fun k hk ha => (hb _ (by omega) ha).trans (getElem_map_regsUpTo _ _), ho, hf⟩

/-! ### The load -/

/-- What `LD Vx, [I]` answers, and every register after it: those of `V0` to `Vx` whose byte lies in the
address space are loaded. -/
theorem execLdVxMem_spec (x : Reg) (s : State) :
    ∃ t, execLdVxMem x s =
        (if s.i.toNat + x.toNat < 4096 then .next t
         else .fault (.addressOutOfRange (max s.i.toNat 4096) t)) ∧
      (∀ k : Reg, t.getV k =
        if k.toNat ≤ x.toNat ∧ s.i.toNat + k.toNat < 4096 then s.byteAt (s.i.toNat + k.toNat)
        else s.getV k) ∧
      changesOnly [.regs] s t := by
  obtain ⟨t, ht, hs, hin, hout⟩ := loadRegs_spec (regsUpTo x) (nodup_regsUpTo x) s.i.toNat s
  refine ⟨t, ht.trans (if_congr ?_ rfl rfl), fun k => ?_, changesOnly_of_v hs⟩
  · simp [← Nat.add_assoc]
  · by_cases hk : k.toNat ≤ x.toNat
    · have := hin k.toNat (by simpa using Nat.lt_succ_of_le hk)
      simpa [getElem_regsUpTo, hk] using this
    · rw [if_neg fun h => hk h.1, hout k fun h => hk ((mem_regsUpTo x k).mp h)]

/-- Settles O43: the load in its two cases; where it completes no byte lies outside. -/
theorem loadRegistersReadsConsecutiveBytes : Obligations.LoadRegistersReadsConsecutiveBytes := by
  intro x s
  obtain ⟨t, ht, hv, hf⟩ := execLdVxMem_spec x s
  refine ⟨decode_encode (i := .ldVxMem x) rfl, fun h => ?_, fun h => ?_⟩
  · rw [if_pos h] at ht
    refine ⟨t, ht, fun k => ?_, hf⟩
    rw [hv k]
    exact if_congr (and_iff_left_of_imp fun hk => by omega) rfl rfl
  · rw [if_neg (Nat.not_lt.mpr h)] at ht
    exact ⟨t, ht, hv, hf⟩

/-- Settles O44: a completed store lies in the address space and has left `I`, so the load completes and
reads the stored bytes. -/
theorem storeThenLoadRestoresRegisters : Obligations.StoreThenLoadRestoresRegisters := by
  intro x s t u h hindex hmem
  have hti : t.i = s.i := (exec_frame h).1 .index (by simp [touches])
  have hui : u.i = s.i := Eq.trans hindex hti
  obtain ⟨hin, -⟩ := execLdMemVx_byteAt h (le_refl x.toNat)
  obtain ⟨-, hload, -⟩ := loadRegistersReadsConsecutiveBytes x u
  obtain ⟨w, hw, hv, hf⟩ := hload (hui ▸ hin)
  refine ⟨w, hw, fun k hk => ?_, hf⟩
  obtain ⟨-, hbyte⟩ := execLdMemVx_byteAt h hk
  rw [hv k, if_pos hk, hui, hmem, hbyte]

end Sys2Proof.Machine
end

section
/-! PROOF. Display (`44_display.md`): `CLS` is `clearScreen`; a `DRW` draws the rows it can read and faults
at the first it cannot; drawing twice cancels; no other instruction touches the screen. -/

namespace Sys2Proof.Machine

/-! ### Clearing -/

/-- Settles O46: `CLS` is `clearScreen`. -/
theorem clearTurnsEveryPixelOff : Obligations.ClearTurnsEveryPixelOff := fun s =>
  ⟨decode_encode (i := .cls) rfl, _, rfl, State.pixel_clearScreen s, changesOnly_clearScreen s⟩

/-! ### The screen changes by `CLS` and `DRW` only -/

theorem exec_screen_ne {i : Instr} {s t : State} (h : exec i s = .next t)
    (hs : ¬ keeps s t .screen) : i = .cls ∨ ∃ x y n, i = .drwVxVyN x y n := by
  cases i with
  | cls => exact .inl rfl
  | drwVxVyN x y n => exact .inr ⟨x, y, n, rfl⟩
  | _ => exact absurd ((exec_frame h).1 .screen (by simp [touches])) hs

/-- Settles O21: neither the fetch nor the end of a step nor a key wait writes the screen, and of the
instructions only `CLS` and `DRW` do. -/
theorem onlyClsAndDrwChangeTheScreen : Obligations.OnlyClsAndDrwChangeTheScreen := by
  intro s t h hs
  rcases step_eq_next h with ⟨i, u, hm, -, hd, hu, rfl⟩ | ⟨x, -, rfl⟩
  · refine ⟨hm, ?_⟩
    rcases exec_screen_ne hu hs with rfl | ⟨x, y, n, rfl⟩
    · exact .inl hd
    · exact .inr ⟨x, y, n, hd⟩
  · exact absurd ((changesOnly_keyWait x s).1 .screen (by decide)) hs

/-! ### One draw -/

/-- The pixels that `drawRows` flips from row 0 on are those the sprite covers. -/
theorem State.spriteRowsOn_zero_iff_covers (s : State) (x0 y0 n : Nat) (row : Fin 32) (col : Fin 64) :
    s.spriteRowsOn x0 y0 0 n row col ↔ s.covers x0 y0 n row col := by
  simp only [State.spriteRowsOn, State.spriteOn, State.covers, State.addr, spriteBit, screenRow,
    screenCol, Fin.ext_iff, Nat.zero_le, true_and, Nat.zero_add]
  constructor
  · rintro ⟨r, hr, ha, c, hc, ⟨hrow, hcol⟩, hb⟩
    exact ⟨r, c, hr, hc, ha, hrow, hcol, hb⟩
  · rintro ⟨r, c, hr, hc, ha, hrow, hcol, hb⟩
    exact ⟨r, hr, ha, c, hc, ⟨hrow, hcol⟩, hb⟩

@[simp] theorem State.setFlag_covers (s : State) (b : Bool) (x0 y0 n : Nat) (row : Fin 32)
    (col : Fin 64) : (s.setFlag b).covers x0 y0 n row col ↔ s.covers x0 y0 n row col := Iff.rfl

open Classical in
/-- What `DRW` answers, and that its sprite is drawn in either case. -/
theorem execDrwVxVyN_spec (x y : Reg) (n : Nibble) (s : State) :
    ∃ t, execDrwVxVyN x y n s =
        (if n = 0#4 ∨ s.i.toNat + n.toNat ≤ 4096 then .next t
         else .fault (.addressOutOfRange (max s.i.toNat 4096) t)) ∧
      drawn s ((s.getV x).toNat % 64) ((s.getV y).toNat % 32) n.toNat t := by
  obtain ⟨t, ht, hs, hp, hv⟩ := drawRows_spec ((s.getV x).toNat % 64) ((s.getV y).toNat % 32) 0
    n.toNat (by omega) (s.setFlag false)
  simp only [State.spriteRowsOn_zero_iff_covers, State.setFlag_covers, State.setFlag_pixel] at hp hv
  have hn : n.toNat = 0 ↔ n = 0#4 := (BitVec.toNat_eq (y := 0#4)).symm
  refine ⟨t, ht.trans (if_congr (or_congr_left hn) rfl rfl), fun row col hc => ?_,
    fun row col hc => ?_, fun hon => ?_, fun hoff => ?_, changesOnly_of_vFb hs, fun r hr => ?_⟩
  · exact (hp row col).trans (by rw [decide_eq_true hc, Bool.xor_true])
  · exact (hp row col).trans (by rw [decide_eq_false hc, Bool.xor_false])
  · exact (hv vf).trans (if_pos ⟨rfl, hon⟩)
  · exact ((hv vf).trans (if_neg fun h => hoff h.2)).trans (State.setFlag_vf s false)
  · exact ((hv r).trans (if_neg fun h => hr h.1)).trans (State.getV_setV_of_ne s hr _)

/-- Settles O47: the draw in its two cases. -/
theorem drawXorsTheSprite : Obligations.DrawXorsTheSprite := by
  intro x y n s
  obtain ⟨t, ht, hd⟩ := execDrwVxVyN_spec x y n s
  refine ⟨decode_encode (i := .drwVxVyN x y n) rfl, fun h => ⟨t, ht.trans (if_pos h), hd⟩,
    fun hn h => ⟨t, ht.trans (if_neg ?_), hd⟩⟩
  rintro (h0 | hle)
  · exact hn h0
  · exact Nat.not_lt.mpr hle h

/-- A completed draw read every row and has drawn its sprite. -/
theorem execDrwVxVyN_eq_next_drawn {x y : Reg} {n : Nibble} {s t : State}
    (h : execDrwVxVyN x y n s = .next t) : (n = 0#4 ∨ s.i.toNat + n.toNat ≤ 4096) ∧
      drawn s ((s.getV x).toNat % 64) ((s.getV y).toNat % 32) n.toNat t := by
  obtain ⟨u, hu, hd⟩ := execDrwVxVyN_spec x y n s
  rw [hu] at h
  have hin : n = 0#4 ∨ s.i.toNat + n.toNat ≤ 4096 := by
    by_contra hn
    rw [if_neg hn] at h; cases h
  obtain rfl := next_of_ite_eq_next h
  exact ⟨hin, hd⟩

/-! ### Two draws of one sprite -/

theorem drawn_keeps {s t : State} {x0 y0 n : Nat} (h : drawn s x0 y0 n t) {p : Part}
    (hp : p ∉ [.regs, .screen]) : keeps s t p := by
  obtain ⟨-, -, -, -, hframe, -⟩ := h
  exact hframe p hp

/-- Drawing changes neither `I` nor memory, so the sprite covers the same pixels afterwards. -/
theorem drawn_covers_iff {s t : State} {x0 y0 n : Nat} (h : drawn s x0 y0 n t) (row : Fin 32)
    (col : Fin 64) : t.covers x0 y0 n row col ↔ s.covers x0 y0 n row col := by
  have hi : t.i = s.i := drawn_keeps h (p := .index) (by decide)
  have hb : ∀ a, t.byteAt a = s.byteAt a := drawn_keeps h (p := .memory) (by decide)
  simp only [State.covers, hi, hb]

/-- A pixel that a draw turned on is one the sprite covers and that is on afterwards. -/
theorem drawn_turned_on_iff {s t : State} {x0 y0 n : Nat} (h : drawn s x0 y0 n t) (row : Fin 32)
    (col : Fin 64) : (s.pixel row col = false ∧ t.pixel row col = true) ↔
      t.covers x0 y0 n row col ∧ t.pixel row col = true := by
  rw [drawn_covers_iff h]
  obtain ⟨hflip, hkeep, -⟩ := h
  by_cases hc : s.covers x0 y0 n row col
  · simp [hc, hflip row col hc]
  · simp [hc, hkeep row col hc]

/-- The same sprite drawn on what its first draw left. -/
theorem drawn_drawn_keeps_screen {s t u : State} {x0 y0 n : Nat} (h : drawn s x0 y0 n t)
    (h' : drawn t x0 y0 n u) : keeps s u .screen := by
  intro row col
  have hcov := drawn_covers_iff h row col
  obtain ⟨hflip, hkeep, -⟩ := h
  obtain ⟨hflip', hkeep', -⟩ := h'
  by_cases hc : s.covers x0 y0 n row col
  · rw [hflip' row col (hcov.mpr hc), hflip row col hc, Bool.not_not]
  · rw [hkeep' row col (mt hcov.mp hc), hkeep row col hc]

/-- Settles O48: the second draw covers the same pixels, so it flips each of them back and meets an on
pixel exactly where the first turned one on. -/
theorem drawingTwiceRestoresTheScreen : Obligations.DrawingTwiceRestoresTheScreen := by
  intro x y n s t h hx hy
  obtain ⟨hin, hd⟩ := execDrwVxVyN_eq_next_drawn h
  obtain ⟨u, hu, hd'⟩ := execDrwVxVyN_spec x y n t
  rw [hx, hy] at hd'
  have hi : t.i = s.i := drawn_keeps hd (p := .index) (by decide)
  rw [hi, if_pos hin] at hu
  have hscreen : keeps s u .screen := drawn_drawn_keeps_screen hd hd'
  obtain ⟨-, -, hon, hoff, -⟩ := hd'
  simp only [← drawn_turned_on_iff hd] at hon hoff
  exact ⟨u, hu, hscreen, hon, hoff⟩

end Sys2Proof.Machine
end

section
/-! PROOF. Random, keypad, timers (`45_keypad_timers_random.md`): the key wait under every
`KEYWAIT_EXTRA_TICK`, and what each of the seven instructions answers and leaves unchanged. -/

namespace Sys2Proof.Machine

/-! ### The key wait -/

/-- A wait that finds no key latches its register and ticks unless the parameter is `never`. -/
theorem keyWaitWith_of_none_writes (e : Config.KeyWaitExtraTick) (x : Reg) {s : State}
    (h0 : s.keys = 0#16) :
    (keyWaitWith e x s).mode = .awaitingKey x ∧
      (keyWaitWith e x s).dt.toNat = s.dt.toNat - (if e = .never then 0 else 1) ∧
      (keyWaitWith e x s).st.toNat = s.st.toNat - (if e = .never then 0 else 1) ∧
      changesOnly [.mode, .delay, .sound] s (keyWaitWith e x s) := by
  have hmode : changesOnly [.mode] s (s.setMode (.awaitingKey x)) := changesOnly_mode s _
  rw [keyWaitWith_of_none e x h0]
  by_cases he : e = .never
  · simp only [if_pos he]
    exact ⟨rfl, rfl, rfl, hmode.mono (by simp)⟩
  · simp only [if_neg he]
    exact ⟨rfl, countDown_toNat s.dt, countDown_toNat s.st, hmode.trans (changesOnly_tick _)⟩

/-- A wait that finds a key stores the least one, runs again, and ticks only if the parameter is
`always`. -/
theorem keyWaitWith_of_least_writes (e : Config.KeyWaitExtraTick) (x : Reg) {s : State} {k : Nibble}
    (hk : s.keys.getLsbD k.toNat = true) (hl : ∀ j, j < k.toNat → s.keys.getLsbD j = false) :
    ((keyWaitWith e x s).getV x).toNat = k.toNat ∧ (keyWaitWith e x s).mode = .running ∧
      (keyWaitWith e x s).dt.toNat = s.dt.toNat - (if e = .always then 1 else 0) ∧
      (keyWaitWith e x s).st.toNat = s.st.toNat - (if e = .always then 1 else 0) := by
  have hv : ((s.setV x (k.setWidth 8)).getV x).toNat = k.toNat := by
    rw [State.getV_setV_self, BitVec.toNat_setWidth_of_le (by decide)]
  rw [keyWaitWith_of_least e x hk hl]
  by_cases he : e = .always
  · simp only [if_pos he]
    exact ⟨hv, rfl, countDown_toNat s.dt, countDown_toNat s.st⟩
  · simp only [if_neg he]
    exact ⟨hv, rfl, rfl, rfl⟩

/-- Settles O14: the key wait with no key and with a least one; `LD Vx, K` and the waiting step run it. -/
theorem keyWaitUnderEveryParameter : Obligations.KeyWaitUnderEveryParameter := by
  refine ⟨fun e x s => ⟨keyWaitWith_of_none_writes e x, fun k hk hl => ?_⟩,
    fun x s => ⟨rfl, step_of_waiting⟩⟩
  obtain ⟨hv, hrun, hdt, hst⟩ := keyWaitWith_of_least_writes e x hk hl
  exact ⟨hv, hrun, hdt, hst, changesOnly_keyWaitWith e x s⟩

/-- Settles O52: `LD Vx, K` is the key wait under the machine's own parameter, whose extra ticks are
`extraTicks`. -/
theorem keyLoadStoresLeastKeyOrWaits : Obligations.KeyLoadStoresLeastKeyOrWaits := by
  intro x s
  have hexec : exec (.ldVxK x) s = .next (keyWait x s) := rfl
  obtain ⟨hdt, hst⟩ := keyWait_timers x s
  refine ⟨decode_encode (i := .ldVxK x) rfl, fun h0 => ?_, fun k hk hl => ?_⟩
  · obtain ⟨hmode, -, -, hframe⟩ := keyWaitWith_of_none_writes s.params.keyWaitExtraTick x h0
    exact ⟨_, hexec, hmode, hdt, hst, hframe⟩
  · obtain ⟨hv, hrun, -, -⟩ := keyWaitWith_of_least_writes s.params.keyWaitExtraTick x hk hl
    exact ⟨_, hexec, hv, hrun, hdt, hst, changesOnly_keyWait x s⟩

/-! ### The random byte -/

/-- Settles O49: `setV` of the masked byte. -/
theorem randomByteIsMasked : Obligations.RandomByteIsMasked := by
  intro x kk s
  refine ⟨decode_encode (i := .rndVxKk x kk) rfl, _, rfl, changesOnlyRegs_setV s x _, fun k => ?_⟩
  rw [State.getV_setV_self, BitVec.getLsbD_and]

/-! ### The skips on a key -/

/-- Settles O50: both are `skipOnKey`, which checks the value of `V[x]` before it skips. -/
theorem keySkipsReadTheSelectedKey : Obligations.KeySkipsReadTheSelectedKey := fun x s =>
  ⟨decode_encode (i := .skpVx x) rfl, decode_encode (i := .sknpVx x) rfl,
    fun h =>
      ⟨⟨_, skipOnKey_of_le h true, changesOnly_skipIf s _, State.skipIf_pc_of_iff beq_iff_eq s⟩,
        ⟨_, skipOnKey_of_le h false, changesOnly_skipIf s _, State.skipIf_pc_of_iff beq_iff_eq s⟩⟩,
    fun h => ⟨skipOnKey_of_gt h true, skipOnKey_of_gt h false⟩⟩

/-! ### The timer transfers -/

/-- Settles O51: `setV`, `setDt` and `setSt`, and after each the tick that ends the step. -/
theorem timerTransfers : Obligations.TimerTransfers := fun x s =>
  ⟨decode_encode (i := .ldVxDt x) rfl, decode_encode (i := .ldDtVx x) rfl,
    decode_encode (i := .ldStVx x) rfl,
    ⟨_, rfl, State.getV_setV_self s x s.dt, changesOnlyRegs_setV s x _, countDown_toNat s.dt⟩,
    ⟨_, rfl, rfl, changesOnly_dt s _, countDown_toNat (s.getV x)⟩,
    ⟨_, rfl, rfl, changesOnly_st s _, countDown_toNat (s.getV x)⟩⟩

end Sys2Proof.Machine
end

section
/-! PROOF. Faults (`60_exceptions.md`): an illegal word faults in decode; what can make an instruction fault,
and what it has written until then; the frame of a faulting step. -/

namespace Sys2Proof.Machine

/-! ### The illegal word -/

/-- Settles O12: the decoder rejects the word, and the state left is the one the fetch hands on. -/
theorem illegalWordFaults : Obligations.IllegalWordFaults := by
  intro s hm hp hill
  obtain ⟨e, he⟩ := (decode_rejectsExactly (s.wordAt s.pc.toNat)).1 hill
  exact step_of_illegal hm hp he

/-! ### Backwards from a fault -/

/-- A checked answer that faulted is the fault its check raises. -/
theorem fault_of_ite_eq_fault {c : Prop} [Decidable c] {t : State} {f g : Fault}
    (h : (if c then .next t else .fault g : Result) = .fault f) : f = g := by
  split at h
  · cases h
  · exact (Host.Outcome.fault.inj h).symm

/-- The fault of an access at `I`: the lowest address outside memory, the access until then having
written at most registers, pixels and memory (`60_exceptions.md` R171, R176). -/
def FaultsAtIndex (s : State) (f : Fault) : Prop :=
  ∃ u, f = .addressOutOfRange (max s.i.toNat 4096) u ∧ changesOnly [.regs, .screen, .memory] s u

theorem storeBytes_eq_fault {bs : List Byte} {s : State} {f : Fault}
    (h : storeBytes (s.addr 0) bs s = .fault f) : FaultsAtIndex s f := by
  obtain ⟨u, hu, hs, -⟩ := storeBytes_spec bs (s.addr 0) s
  exact ⟨u, fault_of_ite_eq_fault (hu.symm.trans h), (changesOnly_of_mem hs).mono (by simp)⟩

theorem execLdVxMem_eq_fault {x : Reg} {s : State} {f : Fault} (h : execLdVxMem x s = .fault f) :
    FaultsAtIndex s f := by
  obtain ⟨u, hu, -, hs⟩ := execLdVxMem_spec x s
  exact ⟨u, fault_of_ite_eq_fault (hu.symm.trans h), hs.mono (by simp)⟩

theorem execDrwVxVyN_eq_fault {x y : Reg} {n : Nibble} {s : State} {f : Fault}
    (h : execDrwVxVyN x y n s = .fault f) : FaultsAtIndex s f := by
  obtain ⟨u, hu, hd⟩ := execDrwVxVyN_spec x y n s
  have hs : changesOnly [.regs, .screen] s u := fun _ => drawn_keeps hd
  exact ⟨u, fault_of_ite_eq_fault (hu.symm.trans h), hs.mono (by simp)⟩

theorem execCall_eq_fault {nnn : Addr12} {s : State} {f : Fault} (h : execCall nnn s = .fault f) :
    s.sp.val = 16 ∧ f = .stackOverflow s := by
  rcases Nat.lt_or_ge s.sp.val 16 with hlt | hge
  · rw [execCall_of_lt nnn hlt] at h; cases h
  · have hfull : s.sp.val = 16 := by omega
    exact ⟨hfull, Host.Outcome.fault.inj (h.symm.trans (execCall_of_full nnn hfull))⟩

theorem execRet_eq_fault {s : State} {f : Fault} (h : execRet s = .fault f) :
    s.sp.val = 0 ∧ f = .stackUnderflow s := by
  rcases Nat.eq_zero_or_pos s.sp.val with hempty | hpos
  · exact ⟨hempty, Host.Outcome.fault.inj (h.symm.trans (execRet_of_empty hempty))⟩
  · rw [execRet, pop_of_pos hpos] at h; cases h

theorem skipOnKey_eq_fault {x : Reg} {p : Bool} {s : State} {f : Fault}
    (h : skipOnKey x p s = .fault f) :
    15 < (s.getV x).toNat ∧ f = .keyIndexOutOfRange (s.getV x) s := by
  rcases Nat.lt_or_ge 15 (s.getV x).toNat with hgt | hle
  · exact ⟨hgt, Host.Outcome.fault.inj (h.symm.trans (skipOnKey_of_gt hgt p))⟩
  · rw [skipOnKey_of_le hle] at h; cases h

/-! ### Every fault of an instruction -/

/-- Every way an instruction faults (`60_exceptions.md` R170 to R175). -/
theorem exec_eq_fault {i : Instr} {s : State} {f : Fault} (h : exec i s = .fault f) :
    (((∃ x, i = .ldBVx x ∨ i = .ldMemVx x ∨ i = .ldVxMem x) ∨ ∃ x y n, i = .drwVxVyN x y n) ∧
      FaultsAtIndex s f) ∨
    ((∃ nnn, i = .call nnn) ∧ s.sp.val = 16 ∧ f = .stackOverflow s) ∨
    (i = .ret ∧ s.sp.val = 0 ∧ f = .stackUnderflow s) ∨
    ∃ x, (i = .skpVx x ∨ i = .sknpVx x) ∧ 15 < (s.getV x).toNat ∧
      f = .keyIndexOutOfRange (s.getV x) s := by
  cases i with
  | ldBVx x => exact .inl ⟨.inl ⟨x, .inl rfl⟩, storeBytes_eq_fault h⟩
  | ldMemVx x => exact .inl ⟨.inl ⟨x, .inr (.inl rfl)⟩, storeBytes_eq_fault h⟩
  | ldVxMem x => exact .inl ⟨.inl ⟨x, .inr (.inr rfl)⟩, execLdVxMem_eq_fault h⟩
  | drwVxVyN x y n => exact .inl ⟨.inr ⟨x, y, n, rfl⟩, execDrwVxVyN_eq_fault h⟩
  | call nnn => exact .inr (.inl ⟨⟨nnn, rfl⟩, execCall_eq_fault h⟩)
  | ret => exact .inr (.inr (.inl ⟨rfl, execRet_eq_fault h⟩))
  | skpVx x => exact .inr (.inr (.inr ⟨x, .inl rfl, skipOnKey_eq_fault h⟩))
  | sknpVx x => exact .inr (.inr (.inr ⟨x, .inr rfl, skipOnKey_eq_fault h⟩))
  | _ => cases h

/-- Settles O17: the ways an instruction faults, each with its information. -/
theorem everyFaultHasItsCause : Obligations.EveryFaultHasItsCause := by
  intro i s f h
  rcases exec_eq_fault h with ⟨hi, u, rfl, -⟩ | ⟨hi, hsp, rfl⟩ | ⟨hi, hsp, rfl⟩ | ⟨x, hi, hk, rfl⟩
  · exact ⟨hi, rfl⟩
  · exact ⟨hi, hsp, rfl⟩
  · exact ⟨hi, hsp, rfl⟩
  · exact ⟨⟨x, hi, rfl⟩, hk, rfl⟩

/-! ### What a fault leaves -/

/-- A faulting instruction has written at most registers, pixels and memory; `pc` is not among them. -/
theorem exec_fault_frame {i : Instr} {s : State} {f : Fault} (h : exec i s = .fault f) :
    ∃ u, f.left = some u ∧ changesOnly [.regs, .screen, .memory] s u := by
  rcases exec_eq_fault h with ⟨-, u, rfl, hs⟩ | ⟨-, -, rfl⟩ | ⟨-, -, rfl⟩ | ⟨x, -, -, rfl⟩
  · exact ⟨u, rfl, hs⟩
  all_goals exact ⟨s, rfl, changesOnly_refl _ s⟩

/-- Settles O16: a fetch fault changes nothing, an illegal word leaves the advanced state, and an
instruction faults on the advanced state without writing `pc`. -/
theorem faultingStepKeepsTimers : Obligations.FaultingStepKeepsTimers := by
  intro s f h
  have hadv := changesOnly_advance s
  obtain ⟨hm, ⟨-, rfl⟩ | ⟨-, -, -, rfl⟩ | ⟨i, -, -, hi⟩⟩ := step_eq_fault h
  · exact ⟨hm, s, rfl, .inl rfl, changesOnly_refl _ s⟩
  · exact ⟨hm, s.advance, rfl, .inr rfl, hadv.mono (by simp)⟩
  · obtain ⟨u, hu, hs⟩ := exec_fault_frame hi
    have hpc : u.pc = s.advance.pc := hs .pc (by decide)
    exact ⟨hm, u, hu, .inr hpc, (hadv.trans hs).mono (by simp)⟩

end Sys2Proof.Machine
end

section
/-! PROOF. Reset and the two loads of boot (`70_reset_and_hazards.md` R190, R194, R195): every load places
one block of bytes, and blocks that do not overlap can be placed in either order. -/

namespace Sys2Proof.Machine

/-! ### Reset -/

theorem resetWith_pc_toNat (p : Config.Params) :
    (State.resetWith p).pc.toNat = p.programStart.val := by
  have := p.programStart.isLt
  simp only [State.resetWith, BitVec.toNat_ofNat]
  omega

theorem resetWith_getV (p : Config.Params) (r : Reg) : (State.resetWith p).getV r = 0#8 := by
  simp [State.resetWith, State.getV]

theorem resetWith_stackAt (p : Config.Params) (k : Fin 16) :
    (State.resetWith p).stackAt k = 0#16 := by
  simp [State.resetWith, State.stackAt]

theorem resetWith_pixel (p : Config.Params) (row : Fin 32) (col : Fin 64) :
    (State.resetWith p).pixel row col = false := by
  simp [State.resetWith, State.pixel]

/-- Settles O1: `resetWith`, read part by part. -/
theorem resetStateIsAsSpecified : Obligations.ResetStateIsAsSpecified :=
  ⟨fun p => ⟨resetWith_getV p, rfl, resetWith_pc_toNat p, rfl, resetWith_stackAt p, rfl, rfl,
    resetWith_pixel p, rfl, fun _ => rfl, rfl⟩, rfl, rfl, rfl⟩

/-! ### Placing blocks of bytes -/

theorem sameBytesOutside_place (s : State) (a : Nat) (bs : List Byte) :
    sameBytesOutside a bs.length s (s.place a bs) := (State.place_spec bs a s).2.2.2

theorem State.byteAt_place (s : State) (a : Nat) (bs : List Byte) (p : Nat) :
    (s.place a bs).byteAt p =
      if h : a ≤ p ∧ p - a < bs.length then bs[p - a] else s.byteAt p := by
  obtain ⟨-, -, hin, hout⟩ := State.place_spec bs a s
  split
  next h =>
    obtain ⟨hlo, hhi⟩ := h
    rw [← hin (p - a) hhi, Nat.add_sub_of_le hlo]
  next h => exact hout p (by omega)

theorem changesOnly_place_place (s : State) (a c : Nat) (bs cs : List Byte) :
    changesOnly [.memory] s ((s.place a bs).place c cs) :=
  ((changesOnly_place s a bs).trans (changesOnly_place _ c cs)).mono (by simp)

/-- Two blocks that do not overlap can be placed in either order. -/
theorem place_place_comm (s : State) {a c : Nat} {bs cs : List Byte} (h : a + bs.length ≤ c) :
    changesOnly [] ((s.place a bs).place c cs) ((s.place c cs).place a bs) := by
  intro part _
  by_cases hm : part = .memory
  · subst hm
    intro p
    simp only [State.byteAt_place]
    by_cases hb : a ≤ p ∧ p - a < bs.length
    · have hc : ¬ (c ≤ p ∧ p - c < cs.length) := by omega
      simp [hb, hc]
    · simp [hb]
  · have hmem : part ∉ [Part.memory] := by simpa using hm
    exact keeps_trans (keeps_symm (changesOnly_place_place s a c bs cs part hmem))
      (changesOnly_place_place s c a cs bs part hmem)

/-! ### The two loads -/

/-- Settles O3: an accepted image is one placed block. -/
theorem programLoadIsBounded : Obligations.ProgramLoadIsBounded := fun image s =>
  ⟨fun h => ⟨_, loadProgram_of_le h s, (State.place_spec image _ s).2.2.1,
    sameBytesOutside_place s _ image, changesOnly_place s _ image⟩, fun h => if_neg (Nat.not_le.mpr h)⟩

/-- The font is placed below the image, at addresses that neither load moves (`00_scope.md` R5). -/
theorem loadProgram_loadFont_comm (glyphs : Vector Byte 80) {s : State} (hok : s.params.ok)
    {image : List Byte} (h : image.length ≤ 3583) :
    ∃ t u, loadProgram image (loadFont glyphs s) = .next t ∧ loadProgram image s = .next u ∧
      changesOnly [] t (loadFont glyphs u) := by
  refine ⟨_, _, loadProgram_of_le h _, loadProgram_of_le h s, ?_⟩
  have hstart : (loadFont glyphs s).programStart = s.programStart := by
    simp [loadFont, State.programStart]
  have hfont : (s.place s.programStart image).fontStart = s.fontStart := by simp [State.fontStart]
  rw [hstart, loadFont, loadFont, hfont]
  exact place_place_comm s (by rw [Vector.length_toList]; exact hok.1)

/-- Settles O4: the font is one placed block, and its load commutes with the program's. -/
theorem fontLoadWritesGlyphs : Obligations.FontLoadWritesGlyphs := by
  intro glyphs s
  refine ⟨fun k hk => ?_, ?_, changesOnly_place s _ _,
    fun hok _ => loadProgram_loadFont_comm glyphs hok⟩
  · have hbyte := (State.place_spec glyphs.toList s.fontStart s).2.2.1 k (by simpa using hk)
    rwa [Vector.getElem_toList] at hbyte
  · have hout := sameBytesOutside_place s s.fontStart glyphs.toList
    rwa [Vector.length_toList] at hout

end Sys2Proof.Machine
end

section
/-! PROOF. The finished machine (`70_reset_and_hazards.md` R204): the word 0x1000 OR `pc` is the jump to
`pc`, so its step is the end of a step and nothing else. -/

namespace Sys2Proof.Machine

/-- A 12-bit address is the target of its own low 12 bits. -/
theorem target_fieldNnn {w : Word} (h : w.toNat < 4096) : target (fieldNnn w) = w := by
  refine BitVec.eq_of_toNat_eq ?_
  simpa [fieldNnn] using h

theorem or_target_eq_encode_jp (nnn : Addr12) : 0x1000#16 ||| target nnn = encode (.jp nnn) := by
  refine BitVec.eq_of_getLsbD_eq fun k hk => ?_
  simp only [encode, getLsbD_formatNnn, target, BitVec.getLsbD_or, BitVec.getLsbD_setWidth]
  interval_cases k <;> simp

/-- The word at `pc` of a finished machine is the jump to `pc` itself. -/
theorem decode_wordAt_of_finished {s : State} (h : finished s) :
    ∃ nnn, decode (s.wordAt s.pc.toNat) = .ok (.jp nnn) ∧ target nnn = s.pc := by
  obtain ⟨-, hpc, hword⟩ := h
  have htarget : target (fieldNnn s.pc) = s.pc := target_fieldNnn (by omega)
  refine ⟨fieldNnn s.pc, ?_, htarget⟩
  have hjp : s.wordAt s.pc.toNat = encode (.jp (fieldNnn s.pc)) := by
    rw [← or_target_eq_encode_jp, htarget, hword]
  exact hjp ▸ decode_encode rfl

/-- The jump undoes the fetch's advance. -/
theorem step_of_finished {s : State} (h : finished s) : step s = .next s.endStep := by
  have ⟨hmode, hpc, _⟩ := h
  obtain ⟨nnn, hdecode, htarget⟩ := decode_wordAt_of_finished h
  have hexec : exec (.jp nnn) s.advance = .next s := by
    show Host.Outcome.next (s.advance.setPc (target nnn)) = .next s
    rw [htarget]
    rfl
  rw [step_of_decode hmode hpc hdecode, hexec, finish_next]

/-- The end of a step writes neither `mode` nor `pc` nor memory. -/
theorem endStep_finished {s : State} (h : finished s) : finished s.endStep := h

/-- Settles O25: the step is the end of a step, which leaves the jump where it is. -/
theorem finishedMachineOnlyTicks : Obligations.FinishedMachineOnlyTicks := by
  intro s h
  obtain ⟨hdt, hst⟩ := endStep_timers s
  exact ⟨s.endStep, step_of_finished h, endStep_finished h, hdt, hst, changesOnly_endStep s⟩

end Sys2Proof.Machine
end
